-- ==== Sys2Proof/Word.lean ====
section
/-! DEFINITION. The values WSFC handles: bytes, byte sequences and instance names (00_scope.md R8 to R10).
No value is signed and no rule sign-extends (R9), so every width is an unsigned bit vector. -/

namespace Sys2Proof

/-- `u8` (R10). Bit 7 is the most significant bit (R9). -/
abbrev Byte := BitVec 8

/-- `Bytes`: a finite sequence of `u8`, indexed from 0 (R10). -/
abbrev Bytes := List Byte

/-- The caller's name for an instance. The spec gives instances no hardware identifier and bounds
their number by nothing (60_exceptions.md R213), so a name is a natural number
(DEDUCED, log 4 for parsers and log 5 for accumulators). -/
abbrev Handle := Nat

end Sys2Proof
end

