-- ==== Sys2Proof/Config.lean ====
section
/-! DEFINITION. What an implementation fixes (00_scope.md R8). -/

namespace Sys2Proof.Config

/-- ACC_MAX, the largest accumulator capacity, in bytes (R8, decision D4). -/
abbrev accMax : Nat := 8

/-- LEN_W, the width of `length`, `bytes_consumed` and payload lengths at the interface: OPEN in the spec
(R8, decision D12), so it has no body. "Nothing in WSFC depends on LEN_W": no definition reads it, and
lengths are naturals (log 12). -/
opaque lenW : Nat

end Sys2Proof.Config
end

