-- ==== Sys2Proof/Syntax.lean ====
section
/-! DEFINITION. The FrameDescriptor value, the twelve commands, and the image of a command as the caller
issues it (10_state.md R22; 30_encoding.md R85, R86). -/

namespace Sys2Proof

/-- A FrameDescriptor (`Desc`, 10_state.md R22): nine fields, every value of each width legal.
Two descriptors are equal when all nine fields are (41_descriptor.md R128). -/
structure Desc where
  /-- FIN, `final_flag`. -/
  fin : Bool
  /-- RSV1, `rsv1_flag`. -/
  rsv1 : Bool
  /-- RSV2, `rsv2_flag`. -/
  rsv2 : Bool
  /-- RSV3, `rsv3_flag`. -/
  rsv3 : Bool
  /-- OPCODE, the raw frame opcode, held verbatim (R24). -/
  opcode : BitVec 4
  /-- MASK, `mask_flag`. -/
  mask : Bool
  /-- PLEN, `payload_len_field`. -/
  plen : BitVec 7
  /-- EXT, `ExtendedPayloadLength.value`. -/
  ext : BitVec 64
  /-- KEY, `MaskingKey.value`. -/
  key : BitVec 32
deriving DecidableEq, Repr

/-- The names of the frame opcodes (30_encoding.md R74). No command reads a name: OPCODE stays raw bits. -/
inductive FrameOpcode where
  | continuation
  | text
  | binary
  | close
  | ping
  | pong
  | reserved (value : BitVec 4)
deriving DecidableEq, Repr

/-- The twelve commands with their typed operands, one constructor per row of spec/opcode_table.json
(30_encoding.md R85, R86). `a` and `p` name an ACC and a PRS instance. -/
inductive Instr where
  /-- 0x1 ACC.RESET A, N. An `a` that names no instance yet is created by the command (log 5). -/
  | accReset (a : Handle) (n : BitVec 4)
  /-- 0x2 ACC.ADD A, b. -/
  | accAdd (a : Handle) (b : Byte)
  /-- 0x3 HDR.DEFAULT. -/
  | hdrDefault
  /-- 0x4 HDR.MAKE fin, op, len. -/
  | hdrMake (fin : Bool) (op : BitVec 4) (len : BitVec 64)
  /-- 0x5 HDR.EFFLEN d. -/
  | hdrEfflen (d : Desc)
  /-- 0x6 PRS.RESET P. -/
  | prsReset (p : Handle)
  /-- 0x7 PRS.BYTE P, b. -/
  | prsByte (p : Handle) (b : Byte)
  /-- 0x8 PRS.EXEC P, buf, length. -/
  | prsExec (p : Handle) (buf : Bytes) (length : Nat)
  /-- 0x9 PRS.PARSED P. -/
  | prsParsed (p : Handle)
  /-- 0xA PRS.MSG P. -/
  | prsMsg (p : Handle)
  /-- 0xB MSK.XOR key, data. -/
  | mskXor (key : BitVec 32) (data : Bytes)
  /-- 0xC WR.HDR d. -/
  | wrHdr (d : Desc)
deriving DecidableEq, Repr

/-- An operand as the caller hands it over, before its type is checked (R86: "An operand given a wider type
than its column shows is refused"). A `Desc` operand is the number of its 112-bit image (10_state.md R23,
as spec/opcode_table.json lists it). DESIGN CHOICE (log 3). -/
inductive Operand where
  /-- The name of an instance. -/
  | handle (h : Nat)
  /-- A number: `u4`, `u8`, `u32`, `u64`, `Bool` as 0 or 1, `Nat`, or a descriptor image. -/
  | num (n : Nat)
  /-- A sequence of numbers, each of which must be a byte. -/
  | bytes (bs : List Nat)
deriving DecidableEq, Repr

/-- The three shapes an operand can have. -/
inductive OperandKind where
  | handle
  | num
  | bytes
deriving DecidableEq, Repr

/-- A command as the caller issues it: the code CMD[3:0] and the operands that travel with it (R85).
"A WSFC command is not variable-length: it is one code with typed operands" (R84). -/
structure Command where
  code : BitVec 4
  operands : List Operand
deriving DecidableEq, Repr

end Sys2Proof
end

