-- ==== Sys2Proof/WellFormed.lean ====
section
/-! DEFINITION. The preconditions of R205 that depend on a command's operands alone. Operand types are
already carried by `Instr`; what is left is the capacity bound and the buffer bound. A command that breaks
one is refused by its meaning, under the name R205 gives. -/

namespace Sys2Proof

/-- R205: `N <= ACC_MAX` for ACC.RESET and `length <= |buf|` for PRS.EXEC; every other command is well formed. -/
def Instr.wellFormed : Instr → Bool
  | .accReset _ n => n.toNat ≤ Config.accMax
  | .accAdd _ _ => true
  | .hdrDefault => true
  | .hdrMake _ _ _ => true
  | .hdrEfflen _ => true
  | .prsReset _ => true
  | .prsByte _ _ => true
  | .prsExec _ buf length => length ≤ buf.length
  | .prsParsed _ => true
  | .prsMsg _ => true
  | .mskXor _ _ => true
  | .wrHdr _ => true

end Sys2Proof
end

