-- ==== Sys2Proof/Decode.lean ====
section
/-! DEFINITION. From the command image to the command and back (30_encoding.md R85 to R87), the packed image
of a descriptor (10_state.md R23), and the names of the frame opcodes (R74). The decoder is total; it rejects
by name. -/

namespace Sys2Proof

/-- Why an image spells no command (60_exceptions.md R205). -/
inductive DecodeError where
  /-- CMD is 0x0 or 0xD to 0xF (R87). -/
  | unassignedCommand
  /-- An operand is outside its type in R86. -/
  | operandOutOfType
deriving DecidableEq, Repr

/-! ### The packed descriptor image -/

/-- DESC[111:0]: KEY, EXT, MASK, PLEN, FIN, RSV1, RSV2, RSV3, OPCODE from the high end down (R23). -/
def packDesc (d : Desc) : BitVec 112 :=
  d.key ++ d.ext ++ BitVec.ofBool d.mask ++ d.plen ++ BitVec.ofBool d.fin ++ BitVec.ofBool d.rsv1
    ++ BitVec.ofBool d.rsv2 ++ BitVec.ofBool d.rsv3 ++ d.opcode

/-- The descriptor whose image is `w` (R23). -/
def unpackDesc (w : BitVec 112) : Desc where
  fin := w.getLsbD 7
  rsv1 := w.getLsbD 6
  rsv2 := w.getLsbD 5
  rsv3 := w.getLsbD 4
  opcode := w.extractLsb' 0 4
  mask := w.getLsbD 15
  plen := w.extractLsb' 8 7
  ext := w.extractLsb' 16 64
  key := w.extractLsb' 80 32

/-! ### Operand types (R86, R205 OperandOutOfType) -/

/-- A number as a value of width `w`, refused when it needs more bits. -/
def asBits (w n : Nat) : Except DecodeError (BitVec w) :=
  if n < 2 ^ w then .ok (BitVec.ofNat w n) else .error .operandOutOfType

/-- A number as a `Bool`: 0 or 1 (R10), anything else refused. -/
def asBool : Nat → Except DecodeError Bool
  | 0 => .ok false
  | 1 => .ok true
  | _ => .error .operandOutOfType

/-- A sequence of numbers as `Bytes`, refused when one is above 0xFF. -/
def asBytes : List Nat → Except DecodeError Bytes
  | [] => .ok []
  | n :: ns =>
    match asBits 8 n, asBytes ns with
    | .ok b, .ok bs => .ok (b :: bs)
    | _, _ => .error .operandOutOfType

/-- A number as a descriptor, through its 112-bit image. -/
def asDesc (n : Nat) : Except DecodeError Desc :=
  (asBits 112 n).map unpackDesc

/-! ### One decoder per command code; the operand lists are those of R86 -/

/-- ACC.RESET: A, `N: u4`. -/
def decodeAccReset : List Operand → Except DecodeError Instr
  | [.handle a, .num n] => (asBits 4 n).map (.accReset a)
  | _ => .error .operandOutOfType

/-- ACC.ADD: A, `b: u8`. -/
def decodeAccAdd : List Operand → Except DecodeError Instr
  | [.handle a, .num b] => (asBits 8 b).map (.accAdd a)
  | _ => .error .operandOutOfType

/-- HDR.DEFAULT: no operand. -/
def decodeHdrDefault : List Operand → Except DecodeError Instr
  | [] => .ok .hdrDefault
  | _ => .error .operandOutOfType

/-- HDR.MAKE: `fin: Bool`, `op: u4`, `len: u64`. -/
def decodeHdrMake : List Operand → Except DecodeError Instr
  | [.num fin, .num op, .num len] =>
    match asBool fin, asBits 4 op, asBits 64 len with
    | .ok f, .ok o, .ok l => .ok (.hdrMake f o l)
    | _, _, _ => .error .operandOutOfType
  | _ => .error .operandOutOfType

/-- HDR.EFFLEN: `d: Desc`. -/
def decodeHdrEfflen : List Operand → Except DecodeError Instr
  | [.num d] => (asDesc d).map .hdrEfflen
  | _ => .error .operandOutOfType

/-- PRS.RESET: P. -/
def decodePrsReset : List Operand → Except DecodeError Instr
  | [.handle p] => .ok (.prsReset p)
  | _ => .error .operandOutOfType

/-- PRS.BYTE: P, `b: u8`. -/
def decodePrsByte : List Operand → Except DecodeError Instr
  | [.handle p, .num b] => (asBits 8 b).map (.prsByte p)
  | _ => .error .operandOutOfType

/-- PRS.EXEC: P, `buf: Bytes`, `length: Nat`. -/
def decodePrsExec : List Operand → Except DecodeError Instr
  | [.handle p, .bytes buf, .num length] => (asBytes buf).map fun bs => .prsExec p bs length
  | _ => .error .operandOutOfType

/-- PRS.PARSED: P. -/
def decodePrsParsed : List Operand → Except DecodeError Instr
  | [.handle p] => .ok (.prsParsed p)
  | _ => .error .operandOutOfType

/-- PRS.MSG: P. -/
def decodePrsMsg : List Operand → Except DecodeError Instr
  | [.handle p] => .ok (.prsMsg p)
  | _ => .error .operandOutOfType

/-- MSK.XOR: `key: u32`, `data: Bytes`. -/
def decodeMskXor : List Operand → Except DecodeError Instr
  | [.num key, .bytes data] =>
    match asBits 32 key, asBytes data with
    | .ok k, .ok bs => .ok (.mskXor k bs)
    | _, _ => .error .operandOutOfType
  | _ => .error .operandOutOfType

/-- WR.HDR: `d: Desc`. -/
def decodeWrHdr : List Operand → Except DecodeError Instr
  | [.num d] => (asDesc d).map .wrHdr
  | _ => .error .operandOutOfType

/-- The command an image spells: CMD[3:0] selects the command (R85), then its operands are typed (R86).
Codes 0x0 and 0xD to 0xF spell none (R87). -/
def decode (c : Command) : Except DecodeError Instr :=
  match c.code.toNat with
  | 0x1 => decodeAccReset c.operands
  | 0x2 => decodeAccAdd c.operands
  | 0x3 => decodeHdrDefault c.operands
  | 0x4 => decodeHdrMake c.operands
  | 0x5 => decodeHdrEfflen c.operands
  | 0x6 => decodePrsReset c.operands
  | 0x7 => decodePrsByte c.operands
  | 0x8 => decodePrsExec c.operands
  | 0x9 => decodePrsParsed c.operands
  | 0xA => decodePrsMsg c.operands
  | 0xB => decodeMskXor c.operands
  | 0xC => decodeWrHdr c.operands
  | _ => .error .unassignedCommand

/-! ### The encoder -/

/-- The numbers of a byte sequence. -/
def bytesToNats (bs : Bytes) : List Nat := bs.map BitVec.toNat

/-- The image of a command (R85, R86). -/
def encode : Instr → Command
  | .accReset a n => ⟨0x1, [.handle a, .num n.toNat]⟩
  | .accAdd a b => ⟨0x2, [.handle a, .num b.toNat]⟩
  | .hdrDefault => ⟨0x3, []⟩
  | .hdrMake fin op len => ⟨0x4, [.num fin.toNat, .num op.toNat, .num len.toNat]⟩
  | .hdrEfflen d => ⟨0x5, [.num (packDesc d).toNat]⟩
  | .prsReset p => ⟨0x6, [.handle p]⟩
  | .prsByte p b => ⟨0x7, [.handle p, .num b.toNat]⟩
  | .prsExec p buf length => ⟨0x8, [.handle p, .bytes (bytesToNats buf), .num length]⟩
  | .prsParsed p => ⟨0x9, [.handle p]⟩
  | .prsMsg p => ⟨0xA, [.handle p]⟩
  | .mskXor key data => ⟨0xB, [.num key.toNat, .bytes (bytesToNats data)]⟩
  | .wrHdr d => ⟨0xC, [.num (packDesc d).toNat]⟩

/-! ### The opcode table's words -/

/-- The shapes of a command's operands, in order (R86). An unassigned code has none. -/
def signature (code : BitVec 4) : List OperandKind :=
  match code.toNat with
  | 0x1 => [.handle, .num]
  | 0x2 => [.handle, .num]
  | 0x4 => [.num, .num, .num]
  | 0x5 => [.num]
  | 0x6 => [.handle]
  | 0x7 => [.handle, .num]
  | 0x8 => [.handle, .bytes, .num]
  | 0x9 => [.handle]
  | 0xA => [.handle]
  | 0xB => [.num, .bytes]
  | 0xC => [.num]
  | _ => []

/-- The shape of an operand. -/
def operandKind : Operand → OperandKind
  | .handle _ => .handle
  | .num _ => .num
  | .bytes _ => .bytes

/-- The operand of zero bits of a shape: name 0, number 0, the empty sequence. -/
def zeroOperand : OperandKind → Operand
  | .handle => .handle 0
  | .num => .num 0
  | .bytes => .bytes []

/-- The image of a word of spec/opcode_table.json: bits 3:0 are CMD[3:0], and every operand is zero, since the
table gives operands no bits. Bits above bit 3 lie outside the table's mask 0xF and are not read.
DESIGN CHOICE (log 3). -/
def tableCommand (w : Nat) : Command :=
  ⟨BitVec.ofNat 4 w, (signature (BitVec.ofNat 4 w)).map zeroOperand⟩

/-- The command the decoder reads from a word of spec/opcode_table.json with zero operands. The word's length
adds nothing: a command is one code with typed operands (R84). -/
def decodeTableWord (_nbits w : Nat) : Option Instr :=
  (decode (tableCommand w)).toOption

/-! ### Names -/

/-- A command's mnemonic, as spec/opcode_table.json spells it (R85). -/
def mnemonic : Instr → String
  | .accReset _ _ => "ACC.RESET"
  | .accAdd _ _ => "ACC.ADD"
  | .hdrDefault => "HDR.DEFAULT"
  | .hdrMake _ _ _ => "HDR.MAKE"
  | .hdrEfflen _ => "HDR.EFFLEN"
  | .prsReset _ => "PRS.RESET"
  | .prsByte _ _ => "PRS.BYTE"
  | .prsExec _ _ _ => "PRS.EXEC"
  | .prsParsed _ => "PRS.PARSED"
  | .prsMsg _ => "PRS.MSG"
  | .mskXor _ _ => "MSK.XOR"
  | .wrHdr _ => "WR.HDR"

/-- The name of a frame opcode value (R74). PRESUMED for binary, close, ping, pong and the reserved set: the
spec marks them as general knowledge (log 15; safe, no command reads a name). -/
def frameOpcodeName (v : BitVec 4) : FrameOpcode :=
  match v.toNat with
  | 0x0 => .continuation
  | 0x1 => .text
  | 0x2 => .binary
  | 0x8 => .close
  | 0x9 => .ping
  | 0xA => .pong
  | _ => .reserved v

end Sys2Proof
end

