-- ==== Sys2Proof/Machine/State.lean ====
section
/-! DEFINITION. The state of WSFC as plain data (10_state.md R20 to R34), the model's own two interface fields,
and the outcomes that stop a run (60_exceptions.md R205). -/

namespace Sys2Proof.Machine

/-- An accumulator instance (the spec's type `Acc`, R26). `cap` and `cnt` are 4-bit fields with legal values
0 to 8 and 0 to `cap`; they are held as naturals and the bound is an invariant (DESIGN CHOICE, log 7; safe).
`buf[j]` is the j-th byte added for `j < cnt`, and 0x00 above. -/
structure Accum where
  cap : Nat
  cnt : Nat
  buf : Vector Byte 8
deriving DecidableEq, Repr

/-- The values of `P.st` (R28). -/
inductive PrsState where
  | awaitFirst
  | awaitSecond
  | awaitExt
  | awaitKey
  | headerComplete
  /-- Entered when an inner accumulator signals FrameSizeOverflow (60_exceptions.md R203). -/
  | failed
deriving DecidableEq, Repr

/-- A parser instance (the spec's type `Prs`, R27). -/
structure Prs where
  st : PrsState
  d : Desc
  acc : Accum
deriving DecidableEq, Repr

/-- The status a command returns (60_exceptions.md R200). -/
inductive Status where
  | ok
  | frameSizeOverflow
deriving DecidableEq, Repr

/-- What ACC.ADD gives back: `A'`, `full` and the status (40_accumulator.md R102). -/
structure Added where
  acc : Accum
  full : Bool
  status : Status
deriving DecidableEq, Repr

/-- What feeding a parser gives back: `P'`, the number of bytes consumed and the status (42_parser.md R142, R150). -/
structure Fed where
  prs : Prs
  consumed : Nat
  status : Status
deriving DecidableEq, Repr

/-- What a completed command returned to the caller (30_encoding.md R86). The instance a command returns
(`A'`, `P'`) is in the state, so it is not repeated here. -/
inductive Result where
  /-- No command has completed since reset. -/
  | none
  /-- ACC.RESET, PRS.RESET: nothing beside the instance itself. -/
  | done
  /-- ACC.ADD: `full` and the status. -/
  | added (full : Bool) (status : Status)
  /-- HDR.DEFAULT, HDR.MAKE, PRS.MSG. -/
  | desc (d : Desc)
  /-- HDR.EFFLEN: a `u64`. -/
  | length (l : BitVec 64)
  /-- PRS.BYTE, PRS.EXEC: `consumed` and the status. -/
  | fed (consumed : Nat) (status : Status)
  /-- PRS.PARSED. -/
  | flag (b : Bool)
  /-- MSK.XOR (the data operand as the command left it) and WR.HDR. -/
  | bytes (bs : Bytes)
deriving DecidableEq, Repr

/-- The machine. `prs` and `accs` hold the instances by the caller's names, in one canonical form: names
strictly rising; in `prs` no entry equal to what an unlisted name reads as (a parser at reset, log 4). A name
that `accs` does not list names no accumulator (R34, R205 NoInstance). -/
structure State where
  /-- The parser instances (R27). -/
  prs : List (Handle × Prs)
  /-- The standalone accumulator instances (R26). -/
  accs : List (Handle × Accum)
  /-- The model's own: the commands the caller has issued and the machine has not run yet, oldest first
  (DESIGN CHOICE, log 1). -/
  pending : List Command
  /-- The model's own: what the last completed command returned (DESIGN CHOICE, log 2). -/
  result : Result
deriving DecidableEq, Repr

/-- The machine before the caller has issued anything: every parser as PRS.RESET leaves it (70_reset_and_hazards.md
R230), no accumulator created (R34), no command pending, nothing returned (DESIGN CHOICE, log 1 and log 2). -/
def State.reset : State where
  prs := []
  accs := []
  pending := []
  result := .none

/-- WSFC never stops with a fault: its one error, FrameSizeOverflow, is a status of a command that completes
(00_scope.md R14, 60_exceptions.md R200), so no constructor is needed (log 11). -/
inductive Fault where
deriving DecidableEq, Repr

/-- The refusals of 60_exceptions.md R205. Each is safe: the machine stops where the spec gives no meaning, with
no change of state. -/
inductive Refusal where
  /-- Raised by an arm of `exec` whose command has no meaning yet. Safe. No arm raises it now. -/
  | notModelled (mnemonic : String)
  /-- Raised by `step`: CMD = 0x0 or 0xD to 0xF (R87, R205). Safe. -/
  | unassignedCommand
  /-- Raised by ACC.RESET: N > ACC_MAX (R101, R205). Safe. -/
  | capacityTooLarge
  /-- Raised by PRS.EXEC: length > |buf| (R150, R205). Safe. -/
  | lengthBeyondBuffer
  /-- Raised by `step`: an operand outside its type in R86 (R205). Safe. -/
  | operandOutOfType
  /-- Raised by ACC.ADD: the instance was never created by ACC.RESET (R205). Safe. -/
  | noInstance
deriving DecidableEq, Repr

/-- The outcome of a command. -/
abbrev Outcome := Host.Outcome State Fault Refusal

end Sys2Proof.Machine
end

