-- ==== Sys2Proof/Machine/Flags.lean ====
section
/-! DEFINITION. The flags and codes of WSFC. A flag has no storage of its own: it is a function of the
registers (10_state.md R30). -/

namespace Sys2Proof.Machine

/-- `full(A) = (A.cnt == A.cap)`, the document's "buffer full" (R26, R30). -/
def full (A : Accum) : Bool := A.cnt == A.cap

/-- `header_parsed`: `P.st == HEADER_COMPLETE` (R30). -/
def headerParsed (P : Prs) : Bool := P.st == .headerComplete

/-- `failed`: `P.st == FAILED` (R30). -/
def failed (P : Prs) : Bool := P.st == .failed

/-- The code of a parser state (R28). Codes 5 and 6 are never held. -/
def prsStateCode : PrsState → BitVec 3
  | .awaitFirst => 0
  | .awaitSecond => 1
  | .awaitExt => 2
  | .awaitKey => 3
  | .headerComplete => 4
  | .failed => 7

/-- The code of a status (60_exceptions.md R200). -/
def statusCode : Status → Nat
  | .ok => 0
  | .frameSizeOverflow => 1

/-- The status word of a result (00_scope.md R14). Only ACC.ADD, PRS.BYTE and PRS.EXEC can return another
than `OK` (60_exceptions.md R200). -/
def resultStatus : Result → Status
  | .none => .ok
  | .done => .ok
  | .added _ status => status
  | .desc _ => .ok
  | .length _ => .ok
  | .fed _ status => status
  | .flag _ => .ok
  | .bytes _ => .ok

end Sys2Proof.Machine
end

