-- ==== Sys2Proof/Machine/Ops.lean ====
section
/-! DEFINITION. The operations the meanings share: instance tables, byte order, caller buffers, the
accumulator, and the entry to and the return from the parser's failure state. -/

namespace Sys2Proof.Machine

/-! ### Instance tables: association lists by name, names strictly rising -/

/-- What a table holds under the name `k`. -/
def lookupName {α : Type} (k : Nat) : List (Nat × α) → Option α
  | [] => none
  | (j, v) :: rest => if j = k then some v else lookupName k rest

/-- A table with `v` under the name `k`, in place of what was there. -/
def insertName {α : Type} (k : Nat) (v : α) : List (Nat × α) → List (Nat × α)
  | [] => [(k, v)]
  | (j, w) :: rest =>
    if k < j then (k, v) :: (j, w) :: rest
    else if k = j then (k, v) :: rest
    else (j, w) :: insertName k v rest

/-- A table without the name `k`. -/
def eraseName {α : Type} (k : Nat) (table : List (Nat × α)) : List (Nat × α) :=
  table.filter fun e => e.1 ≠ k

/-- The names of a table rise strictly, and none is below `bound`. -/
def namesRiseFrom {α : Type} (bound : Nat) : List (Nat × α) → Bool
  | [] => true
  | (j, _) :: rest => bound ≤ j && namesRiseFrom (j + 1) rest

/-- The names of a table rise strictly. -/
def namesRise {α : Type} (table : List (Nat × α)) : Bool := namesRiseFrom 0 table

/-! ### Byte order: big-endian, fixed (00_scope.md R11, 20_memory.md R54) -/

/-- `BE(s)`: the sum of `s[j] * 256^(n-1-j)`, so `s[0]` is most significant (R11). -/
def be : Bytes → Nat
  | [] => 0
  | b :: rest => b.toNat * 256 ^ rest.length + be rest

/-- `bytesBE_n(v)`: the low `n` bytes of `v`, most significant first (R11). -/
def bytesBE : Nat → Nat → Bytes
  | 0, _ => []
  | n + 1, v => BitVec.ofNat 8 (v / 256 ^ n) :: bytesBE n v

/-! ### Caller buffers: one byte wide, the only way a command reaches a buffer (00_scope.md R13, 20_memory.md R53) -/

/-- `MemRead(buf, i, 1)`, defined only for `i < |buf|` (R13). -/
def memRead (buf : Bytes) (i : Nat) : Option Byte := buf[i]?

/-- `MemWrite(buf, i, 1, v)`, in place; at `i >= |buf|`, where R13 does not define it, nothing is written. -/
def memWrite (buf : Bytes) (i : Nat) (v : Byte) : Bytes := buf.set i v

/-! ### The accumulator -/

/-- The state effect of ACC.RESET: `cap` N, `cnt` 0, every byte 0x00 (40_accumulator.md R101). -/
def accReset (n : Nat) : Accum where
  cap := n
  cnt := 0
  buf := Vector.replicate 8 0

/-- ACC.ADD's effect and results (40_accumulator.md R102). On a full accumulator nothing is stored and the result
is `full` = 1 with FrameSizeOverflow (60_exceptions.md R201). -/
def accAdd (A : Accum) (b : Byte) : Added :=
  if A.cnt = A.cap then ⟨A, true, .frameSizeOverflow⟩
  else
    let A' : Accum := { A with buf := A.buf.setIfInBounds A.cnt b, cnt := A.cnt + 1 }
    ⟨A', full A', .ok⟩

/-- `accBE(A) = BE(A.buf[0 .. A.cap-1])`, defined only when `full(A)` (40_accumulator.md R104). It is evaluated
on a full accumulator only (log 9). -/
def accBE (A : Accum) : Nat := be (A.buf.toList.take A.cap)

/-! ### Values at reset -/

/-- DEFAULT_DESC (10_state.md R25): FIN = 1, every other field 0 (90_conflicts.md C4). -/
def defaultDesc : Desc where
  fin := true
  rsv1 := false
  rsv2 := false
  rsv3 := false
  opcode := 0
  mask := false
  plen := 0
  ext := 0
  key := 0

/-- A parser as PRS.RESET and construction leave it: AWAIT_FIRST, DEFAULT_DESC, an accumulator of capacity 0
(42_parser.md R141, 10_state.md R34). It is also the return from FAILED (60_exceptions.md R206). -/
def initialPrs : Prs where
  st := .awaitFirst
  d := defaultDesc
  acc := accReset 0

/-! ### The one error -/

/-- `raise FrameSizeOverflow` inside a parser: P.st becomes FAILED, P.d and P.acc keep the values they had
before the byte, and the byte is not counted (60_exceptions.md R203). -/
def enterFailed (P : Prs) : Fed := ⟨{ P with st := .failed }, 0, .frameSizeOverflow⟩

/-- The refusal a decoding error stands for (60_exceptions.md R205). -/
def refusalOf : DecodeError → Refusal
  | .unassignedCommand => .unassignedCommand
  | .operandOutOfType => .operandOutOfType

end Sys2Proof.Machine
end

