-- ==== Sys2Proof/Machine/Operands.lean ====
section
/-! DEFINITION. Reaching the operands that name an instance, and returning a result. Every read and write of
an instance goes through these (30_encoding.md R86). -/

namespace Sys2Proof.Machine

/-- The parser a name stands for. A name no command has written yet stands for a parser as construction leaves
it (70_reset_and_hazards.md R230; DEDUCED, log 4). -/
def State.parser (s : State) (p : Handle) : Prs := (lookupName p s.prs).getD initialPrs

/-- The state with `P` as the parser named `p`, in canonical form. -/
def State.setParser (s : State) (p : Handle) (P : Prs) : State :=
  { s with prs := if P = initialPrs then eraseName p s.prs else insertName p P s.prs }

/-- The accumulator a name stands for, none before its first ACC.RESET (10_state.md R34). -/
def State.acc (s : State) (a : Handle) : Option Accum := lookupName a s.accs

/-- The state with `A` as the accumulator named `a`. -/
def State.setAcc (s : State) (a : Handle) (A : Accum) : State :=
  { s with accs := insertName a A s.accs }

/-- The state with `r` as what the last command returned (log 2). -/
def State.withResult (s : State) (r : Result) : State := { s with result := r }

/-- The state with `cmds` as the commands issued and not yet run (log 1). -/
def State.withPending (s : State) (cmds : List Command) : State := { s with pending := cmds }

/-- `return r`: the command completes with the result `r` (00_scope.md R14; log 2). -/
def State.returning (s : State) (r : Result) : Host.Outcome State Fault Refusal :=
  .next (s.withResult r)

end Sys2Proof.Machine
end

