-- ==== Sys2Proof/Machine/Accumulator.lean ====
section
/-! DEFINITION. ACC.RESET and ACC.ADD (40_accumulator.md R101, R102). -/

namespace Sys2Proof.Machine

/-- ACC.RESET A, N: construct or reset the instance with capacity N; N above ACC_MAX is refused (R101). -/
def execAccReset (a : Handle) (n : BitVec 4) (s : State) : Host.Outcome State Fault Refusal :=
  if n.toNat > Config.accMax then .refused .capacityTooLarge
  else (s.setAcc a (accReset n.toNat)).returning .done

/-- ACC.ADD A, b: append one byte; an instance that was never created is refused (R102, 60_exceptions.md R205). -/
def execAccAdd (a : Handle) (b : Byte) (s : State) : Host.Outcome State Fault Refusal :=
  match s.acc a with
  | none => .refused .noInstance
  | some A =>
    let r := accAdd A b
    (s.setAcc a r.acc).returning (.added r.full r.status)

end Sys2Proof.Machine
end

