-- ==== Sys2Proof/Machine/Descriptor.lean ====
section
/-! DEFINITION. The frame header model: HDR.DEFAULT, HDR.MAKE, HDR.EFFLEN and the derivations they use
(41_descriptor.md R120 to R128). HDR holds no state (10_state.md R31). -/

namespace Sys2Proof.Machine

/-- The effective payload length L of a descriptor (R124). No range is checked. -/
def effLen (d : Desc) : BitVec 64 :=
  if d.plen.toNat < 126 then d.plen.setWidth 64 else d.ext

/-- `encLen(len) = (PLEN, EXT)`: the narrowest field that fits (R125). -/
def encLen (len : BitVec 64) : BitVec 7 × BitVec 64 :=
  if len.toNat < 126 then (len.setWidth 7, 0)
  else if len.toNat ≤ 65535 then (126, len)
  else (127, len)

/-- The descriptor HDR.MAKE builds: FIN, OPCODE and the length fields, everything else default (R122). -/
def makeDesc (fin : Bool) (op : BitVec 4) (len : BitVec 64) : Desc :=
  { defaultDesc with fin := fin, opcode := op, plen := (encLen len).1, ext := (encLen len).2 }

/-- `compliant(d)`: the encoder-side ranges (R127). No command checks it. -/
def compliant (d : Desc) : Bool :=
  if d.plen.toNat < 126 then d.ext == 0
  else if d.plen.toNat = 126 then 126 ≤ d.ext.toNat && d.ext.toNat ≤ 65535
  else 65535 < d.ext.toNat

/-- HDR.DEFAULT (R121). -/
def execHdrDefault (s : State) : Host.Outcome State Fault Refusal :=
  s.returning (.desc defaultDesc)

/-- HDR.MAKE fin, op, len (R122). -/
def execHdrMake (fin : Bool) (op : BitVec 4) (len : BitVec 64) (s : State) :
    Host.Outcome State Fault Refusal :=
  s.returning (.desc (makeDesc fin op len))

/-- HDR.EFFLEN d (R123). -/
def execHdrEfflen (d : Desc) (s : State) : Host.Outcome State Fault Refusal :=
  s.returning (.length (effLen d))

end Sys2Proof.Machine
end

