-- ==== Sys2Proof/Machine/Mask.lean ====
section
/-! DEFINITION. The payload mask cipher: MSK.XOR (43_mask.md R180 to R185). MSK holds no state (10_state.md R31). -/

namespace Sys2Proof.Machine

/-- The cipher byte `k[j] = key[31-8j : 24-8j]`, so `k[0]` is the most significant byte (R181). -/
def keyByte (key : BitVec 32) (j : Nat) : Byte := key.extractLsb' (24 - 8 * j) 8

/-- The first `n` rounds of `for i in 0 .. |data|-1`: each reads byte i, XORs it with `k[i mod 4]` and writes
it back (R180). -/
def maskLoop (key : BitVec 32) : Nat → Bytes → Bytes
  | 0, data => data
  | i + 1, data =>
    let before := maskLoop key i data
    match memRead before i with
    | none => before
    | some b => memWrite before i (b ^^^ keyByte key (i % 4))

/-- The data operand as MSK.XOR leaves it (R180). -/
def maskXor (key : BitVec 32) (data : Bytes) : Bytes := maskLoop key data.length data

/-- `rotl32(v, n)`, for 0 <= n < 32 (R183). -/
def rotl32 (v : BitVec 32) (n : Nat) : BitVec 32 :=
  if n = 0 then v else v <<< n ||| v >>> (32 - n)

/-- MSK.XOR key, data: the result is the data operand as the command left it in place (R180, R86; log 13). -/
def execMskXor (key : BitVec 32) (data : Bytes) (s : State) : Host.Outcome State Fault Refusal :=
  s.returning (.bytes (maskXor key data))

end Sys2Proof.Machine
end

