-- ==== Sys2Proof/Machine/Parser.lean ====
section
/-! DEFINITION. The incremental frame parser: the byte step, and PRS.RESET, PRS.BYTE, PRS.EXEC, PRS.PARSED,
PRS.MSG (42_parser.md R140 to R155). -/

namespace Sys2Proof.Machine

/-! ### The length of a header (30_encoding.md R79) -/

/-- `extLen(p)`: the number of extended-length bytes that PLEN announces. -/
def extLen (plen : BitVec 7) : Nat :=
  if plen.toNat = 126 then 2 else if plen.toNat = 127 then 8 else 0

/-- `hdrLen(byte1)`: the header's length in bytes, known from byte 1 alone. -/
def hdrLen (byte1 : Byte) : Nat :=
  2 + extLen (byte1.extractLsb' 0 7) + if byte1.getLsbD 7 then 4 else 0

/-! ### The byte step -/

/-- `afterLength(P)`: the state that follows the length fields (R148). -/
def afterLength (P : Prs) : Prs :=
  if P.d.mask then { P with acc := accReset 4, st := .awaitKey }
  else { P with st := .headerComplete }

/-- The step in AWAIT_FIRST: byte 0 gives FIN, RSV1 to RSV3 and the raw OPCODE (R143). -/
def stepFirst (P : Prs) (b : Byte) : Fed :=
  let d : Desc :=
    { P.d with
      fin := b.getLsbD 7, rsv1 := b.getLsbD 6, rsv2 := b.getLsbD 5, rsv3 := b.getLsbD 4,
      opcode := b.extractLsb' 0 4 }
  ⟨{ P with d := d, st := .awaitSecond }, 1, .ok⟩

/-- The step in AWAIT_SECOND: byte 1 gives MASK and PLEN, and PLEN chooses what comes next (R144). -/
def stepSecond (P : Prs) (b : Byte) : Fed :=
  let P' : Prs := { P with d := { P.d with mask := b.getLsbD 7, plen := b.extractLsb' 0 7 } }
  if P'.d.plen.toNat = 126 then ⟨{ P' with acc := accReset 2, st := .awaitExt }, 1, .ok⟩
  else if P'.d.plen.toNat = 127 then ⟨{ P' with acc := accReset 8, st := .awaitExt }, 1, .ok⟩
  else ⟨afterLength P', 1, .ok⟩

/-- The step in AWAIT_EXT: one byte of the extended length; EXT is written by the byte that fills P.acc (R145). -/
def stepExt (P : Prs) (b : Byte) : Fed :=
  let r := accAdd P.acc b
  match r.status with
  | .frameSizeOverflow => enterFailed P
  | .ok =>
    if r.full then
      ⟨afterLength { P with acc := r.acc, d := { P.d with ext := BitVec.ofNat 64 (accBE r.acc) } }, 1, .ok⟩
    else ⟨{ P with acc := r.acc }, 1, .ok⟩

/-- The step in AWAIT_KEY: one byte of the masking key; KEY is written by the byte that fills P.acc (R146). -/
def stepKey (P : Prs) (b : Byte) : Fed :=
  let r := accAdd P.acc b
  match r.status with
  | .frameSizeOverflow => enterFailed P
  | .ok =>
    if r.full then
      ⟨{ P with acc := r.acc, d := { P.d with key := BitVec.ofNat 32 (accBE r.acc) },
                st := .headerComplete }, 1, .ok⟩
    else ⟨{ P with acc := r.acc }, 1, .ok⟩

/-- The spec's `step(P, b)`: which rule applies depends on P.st alone (R142). In HEADER_COMPLETE and FAILED
nothing is consumed and nothing changes (R147). -/
def prsStep (P : Prs) (b : Byte) : Fed :=
  match P.st with
  | .awaitFirst => stepFirst P b
  | .awaitSecond => stepSecond P b
  | .awaitExt => stepExt P b
  | .awaitKey => stepKey P b
  | .headerComplete => ⟨P, 0, .ok⟩
  | .failed => ⟨P, 0, .frameSizeOverflow⟩

/-! ### Feeding a buffer -/

/-- The loop of PRS.EXEC with `n` bytes of `length` left and `i` consumed (R150). A byte that overflows is not
counted. The buffer is read at indices 0, 1, 2, … and never at or past `length` (20_memory.md R51, R60). A read past
the buffer, which R13 does not define, would end the loop; PRS.EXEC refuses every length that could lead to one. -/
def prsLoop (buf : Bytes) : Nat → Nat → Prs → Fed
  | 0, i, P => ⟨P, i, .ok⟩
  | n + 1, i, P =>
    if P.st = .headerComplete then ⟨P, i, .ok⟩
    else
      match memRead buf i with
      | none => ⟨P, i, .ok⟩
      | some b =>
        let r := prsStep P b
        match r.status with
        | .frameSizeOverflow => ⟨r.prs, i, .frameSizeOverflow⟩
        | .ok => prsLoop buf n (i + 1) r.prs

/-- PRS.EXEC's effect on a parser, once `length <= |buf|` holds: in FAILED the error is reported again, else
the loop runs from index 0 (R150). -/
def feedBuffer (P : Prs) (buf : Bytes) (length : Nat) : Fed :=
  if P.st = .failed then ⟨P, 0, .frameSizeOverflow⟩ else prsLoop buf length 0 P

/-! ### The commands -/

/-- PRS.RESET P: a new parse cycle, valid in every state (R141). -/
def execPrsReset (p : Handle) (s : State) : Host.Outcome State Fault Refusal :=
  (s.setParser p initialPrs).returning .done

/-- PRS.BYTE P, b: one byte step (R149). -/
def execPrsByte (p : Handle) (b : Byte) (s : State) : Host.Outcome State Fault Refusal :=
  let r := prsStep (s.parser p) b
  (s.setParser p r.prs).returning (.fed r.consumed r.status)

/-- PRS.EXEC P, buf, length: feed a buffer; a length beyond the buffer is refused (R150). -/
def execPrsExec (p : Handle) (buf : Bytes) (length : Nat) (s : State) : Host.Outcome State Fault Refusal :=
  if length > buf.length then .refused .lengthBeyondBuffer
  else
    let r := feedBuffer (s.parser p) buf length
    (s.setParser p r.prs).returning (.fed r.consumed r.status)

/-- PRS.PARSED P: has the header completed? (R152) -/
def execPrsParsed (p : Handle) (s : State) : Host.Outcome State Fault Refusal :=
  s.returning (.flag (headerParsed (s.parser p)))

/-- PRS.MSG P: the descriptor accumulated so far (R153). -/
def execPrsMsg (p : Handle) (s : State) : Host.Outcome State Fault Refusal :=
  s.returning (.desc (s.parser p).d)

end Sys2Proof.Machine
end

