-- ==== Sys2Proof/Machine/Writer.lean ====
section
/-! DEFINITION. The frame writer: WR.HDR and the complete wire header a caller builds with it
(44_writer.md R190 to R195). WR holds no state (10_state.md R31). -/

namespace Sys2Proof.Machine

/-- Byte 0, `{FIN, RSV1, RSV2, RSV3, OPCODE[3:0]}` (30_encoding.md R71). -/
def byte0 (d : Desc) : Byte :=
  BitVec.ofBool d.fin ++ BitVec.ofBool d.rsv1 ++ BitVec.ofBool d.rsv2 ++ BitVec.ofBool d.rsv3 ++ d.opcode

/-- Byte 1, `{MASK, PLEN[6:0]}` (30_encoding.md R72). -/
def byte1 (d : Desc) : Byte := BitVec.ofBool d.mask ++ d.plen

/-- The header bytes WR.HDR writes: byte 0, byte 1 and the extended length that PLEN announces. The key is
never among them (R190, R191, R193). -/
def writeHeader (d : Desc) : Bytes :=
  [byte0 d, byte1 d] ++
    if d.plen.toNat = 126 then bytesBE 2 (d.ext.extractLsb' 0 16).toNat
    else if d.plen.toNat = 127 then bytesBE 8 d.ext.toNat
    else []

/-- KEY.BYTES key: the four bytes a caller appends after WR.HDR (30_encoding.md R89). -/
def keyBytes (key : BitVec 32) : Bytes := bytesBE 4 key.toNat

/-- The complete wire header of a descriptor: WR.HDR's bytes, then the key bytes when MASK = 1 (R192). -/
def wireHeader (d : Desc) : Bytes := writeHeader d ++ if d.mask then keyBytes d.key else []

/-- A wire-exact descriptor: its wire header loses none of it (R194). -/
def wireExact (d : Desc) : Bool :=
  (126 ≤ d.plen.toNat || d.ext == 0) && (d.plen.toNat ≠ 126 || d.ext.toNat < 65536)
    && (d.mask || d.key == 0)

/-- WR.HDR d (R190). Any descriptor is accepted. -/
def execWrHdr (d : Desc) (s : State) : Host.Outcome State Fault Refusal :=
  s.returning (.bytes (writeHeader d))

end Sys2Proof.Machine
end

