-- ==== Sys2Proof/Machine/Dispatch.lean ====
section
/-! DEFINITION. One arm per command (30_encoding.md R85). -/

namespace Sys2Proof.Machine

def exec (i : Instr) (s : State) : Host.Outcome State Fault Refusal :=
  match i with
  | .accReset a n => Sys2Proof.Machine.execAccReset a n s
  | .accAdd a b => Sys2Proof.Machine.execAccAdd a b s
  | .hdrDefault => Sys2Proof.Machine.execHdrDefault s
  | .hdrMake fin op len => Sys2Proof.Machine.execHdrMake fin op len s
  | .hdrEfflen d => Sys2Proof.Machine.execHdrEfflen d s
  | .prsReset p => Sys2Proof.Machine.execPrsReset p s
  | .prsByte p b => Sys2Proof.Machine.execPrsByte p b s
  | .prsExec p buf length => Sys2Proof.Machine.execPrsExec p buf length s
  | .prsParsed p => Sys2Proof.Machine.execPrsParsed p s
  | .prsMsg p => Sys2Proof.Machine.execPrsMsg p s
  | .mskXor key data => Sys2Proof.Machine.execMskXor key data s
  | .wrHdr d => Sys2Proof.Machine.execWrHdr d s

end Sys2Proof.Machine
end

