-- ==== Sys2Proof/Machine/Step.lean ====
section
/-! DEFINITION. One step: the oldest command the caller has issued, decoded and run as one atomic transaction
(00_scope.md R6, 20_memory.md R57, R61; log 1). -/

namespace Sys2Proof.Machine

/-- One step. The command leaves the queue and runs; one that spells no command or has an operand outside its
type is refused by name (60_exceptions.md R205). With no command issued nothing changes: no unit steps on its
own (R6), and state "persists unchanged until the next command" (60_exceptions.md R215). -/
def step (s : State) : Host.Outcome State Fault Refusal :=
  match s.pending with
  | [] => .next s
  | c :: rest =>
    match decode c with
    | .error e => .refused (refusalOf e)
    | .ok i => exec i (s.withPending rest)

/-- The state with the word of spec/opcode_table.json issued as the next command, every operand zero: it stands
for the caller issuing that command (log 1, log 3). -/
def State.withFetchWord (s : State) (_nbits w : Nat) : State :=
  s.withPending (tableCommand w :: s.pending)

end Sys2Proof.Machine
end

