-- ==== Sys2Proof/Machine/Program.lean ====
section
/-! DEFINITION. Programs (30_encoding.md R88), the pseudo-command PRS.FEED1 (R89), and a caller that feeds a
stream to a parser in chunks (42_parser.md R151). All three stand on the caller's side. -/

namespace Sys2Proof.Machine

/-- The state in which the caller has issued the program `is`, "executed top to bottom with no branches" (R88). -/
def State.load (s : State) (is : List Instr) : State := s.withPending (is.map encode)

/-- A program run command by command, stopping at the first refusal. -/
def runProgram : List Instr → State → Host.Outcome State Fault Refusal
  | [], s => .next s
  | i :: is, s =>
    match exec i s with
    | .next t => runProgram is t
    | .fault r => .fault r
    | .refused r => .refused r

/-- PRS.FEED1 P, s: one PRS.EXEC of length 1 for each byte (R89). -/
def feed1 (p : Handle) (s : Bytes) : List Instr := s.map fun b => .prsExec p [b] 1

/-- The caller's count of the bytes a result says were consumed. -/
def consumedOf : Result → Nat
  | .fed n _ => n
  | _ => 0

/-- The caller feeds the chunks to the parser named `p` by successive PRS.EXEC commands, each with
`length = |chunk|`, and sums the `consumed` results (R151). `none` if a command does not complete. -/
def feedChunks (p : Handle) : List Bytes → State → Option (State × Nat)
  | [], s => some (s, 0)
  | c :: cs, s =>
    match exec (.prsExec p c c.length) s with
    | .next t => (feedChunks p cs t).map fun r => (r.1, consumedOf t.result + r.2)
    | .fault _ => none
    | .refused _ => none

end Sys2Proof.Machine
end

