-- ==== Sys2Proof/Safety.lean ====
section
/-! DEFINITION. What a safe run is: the invariants of an accumulator (10_state.md R26) and of a parser (R29), the
canonical form of the instance tables, and a state that has all of them. -/

namespace Sys2Proof

open Machine

/-- R26: `A.cnt <= A.cap <= 8`, and `A.buf[j]` is 0x00 for `j >= A.cnt`. -/
def accumInv (A : Accum) : Bool :=
  A.cnt ≤ A.cap && A.cap ≤ Config.accMax && (A.buf.toList.drop A.cnt).all (· == 0)

/-- R29, state by state. Beside R29: the accumulator is still as reset left it before byte 1; a 16-bit extension
leaves EXT below 2^16; and a completed descriptor is wire-exact (44_writer.md R194). FAILED does not satisfy it:
"FAILED is unreachable from reset by PRS commands". -/
def prsInv (P : Prs) : Bool :=
  accumInv P.acc &&
  match P.st with
  | .awaitFirst => P.d == defaultDesc && P.acc == accReset 0
  | .awaitSecond =>
    !P.d.mask && P.d.plen == 0 && P.d.ext == 0 && P.d.key == 0 && P.acc == accReset 0
  | .awaitExt =>
    P.acc.cap == (if P.d.plen.toNat = 126 then 2 else 8) && P.acc.cnt < P.acc.cap
      && 126 ≤ P.d.plen.toNat && P.d.ext == 0 && P.d.key == 0
  | .awaitKey =>
    P.acc.cap == 4 && P.acc.cnt < 4 && P.d.mask && P.d.key == 0
      && wireExact { P.d with key := 0 }
  | .headerComplete => wireExact P.d
  | .failed => false

/-- The canonical form of the parser table: names rise strictly, and no entry equals what an unlisted name
reads as. -/
def prsTableWf (table : List (Handle × Prs)) : Bool :=
  namesRise table && table.all fun e => e.2 != initialPrs

/-- A state every one of whose parsers and accumulators could have been reached by commands, in canonical form. -/
def Machine.State.inv (s : State) : Bool :=
  prsTableWf s.prs && s.prs.all (fun e => prsInv e.2)
    && namesRise s.accs && s.accs.all (fun e => accumInv e.2)

/-! ### What a command leaves alone -/

/-- Nothing but the returned result differs. -/
def Machine.State.sameUnits (s t : State) : Prop :=
  t.prs = s.prs ∧ t.accs = s.accs ∧ t.pending = s.pending

/-- Nothing but the parser named `p` and the returned result differs. -/
def Machine.State.onlyParser (p : Handle) (s t : State) : Prop :=
  (∀ q, q ≠ p → t.parser q = s.parser q) ∧ (∀ a, t.acc a = s.acc a) ∧ t.pending = s.pending

/-- Nothing but the accumulator named `a` and the returned result differs. -/
def Machine.State.onlyAcc (a : Handle) (s t : State) : Prop :=
  (∀ c, c ≠ a → t.acc c = s.acc c) ∧ (∀ p, t.parser p = s.parser p) ∧ t.pending = s.pending

/-- The parser a command may write (10_state.md R33). -/
def Instr.parserWritten : Instr → Option Handle
  | .prsReset p => some p
  | .prsByte p _ => some p
  | .prsExec p _ _ => some p
  | .accReset _ _ => none
  | .accAdd _ _ => none
  | .hdrDefault => none
  | .hdrMake _ _ _ => none
  | .hdrEfflen _ => none
  | .prsParsed _ => none
  | .prsMsg _ => none
  | .mskXor _ _ => none
  | .wrHdr _ => none

/-- The parser a command names, whether it writes it or only reads it (30_encoding.md R86). -/
def Instr.parserNamed : Instr → Option Handle
  | .prsReset p => some p
  | .prsByte p _ => some p
  | .prsExec p _ _ => some p
  | .prsParsed p => some p
  | .prsMsg p => some p
  | .accReset _ _ => none
  | .accAdd _ _ => none
  | .hdrDefault => none
  | .hdrMake _ _ _ => none
  | .hdrEfflen _ => none
  | .mskXor _ _ => none
  | .wrHdr _ => none

/-- The accumulator a command names; both ACC commands write it (10_state.md R33). -/
def Instr.accNamed : Instr → Option Handle
  | .accReset a _ => some a
  | .accAdd a _ => some a
  | .hdrDefault => none
  | .hdrMake _ _ _ => none
  | .hdrEfflen _ => none
  | .prsReset _ => none
  | .prsByte _ _ => none
  | .prsExec _ _ _ => none
  | .prsParsed _ => none
  | .prsMsg _ => none
  | .mskXor _ _ => none
  | .wrHdr _ => none

/-- Two commands name no instance in common (20_memory.md R61). -/
def Instr.apart (i j : Instr) : Prop :=
  (∀ p, i.parserNamed = some p → j.parserNamed ≠ some p) ∧ (∀ a, i.accNamed = some a → j.accNamed ≠ some a)

/-- The descriptor a receiver gets from the wire header of `d`: what the header does not carry is lost
(44_writer.md R193). -/
def asReceived (d : Desc) : Desc :=
  { d with
    ext := if d.plen.toNat = 126 then BitVec.ofNat 64 (d.ext.toNat % 65536)
           else if d.plen.toNat = 127 then d.ext else 0
    key := if d.mask then d.key else 0 }

end Sys2Proof
end

