-- ==== Sys2Proof/Certificates/Slice0/Obligations.lean ====
section
/-! DEFINITION. The statements about WSFC, for the provers. A command's result is read from `State.result`, the
model's own field (log 2), and commands are issued through `State.pending`, the model's own field (log 1): where a
statement names either, it states the spec's rule through the model's interface. -/

open Sys2Proof Sys2Proof.Machine

/-! ### Commands and their images -/

/-- O1. No bit of an operand is dropped by the command image and its decoder (30_encoding.md R85, R86; the image
is the model's, log 3). -/
def Obligations.DecodeOfEncodeIsTheCommand : Prop :=
  ∀ i : Instr, decode (encode i) = .ok i

/-- O2. A command has one image: whatever image decodes to it is the one the encoder writes, so no operand outside
its type decodes (30_encoding.md R86; the image is the model's, log 3). -/
def Obligations.EncodeOfDecodeIsTheImage : Prop :=
  ∀ (c : Command) (i : Instr), decode c = .ok i → encode i = c

/-- O3. A few images written out from the code table decode to the commands they stand for (30_encoding.md R85,
R86; the operand layout is the model's, log 3). -/
def Obligations.CommandCodesSpellTheirCommands : Prop :=
  decode ⟨0x1#4, [.handle 7, .num 2]⟩ = .ok (.accReset 7 2) ∧
  decode ⟨0x2#4, [.handle 7, .num 0xAB]⟩ = .ok (.accAdd 7 0xAB) ∧
  decode ⟨0x4#4, [.num 1, .num 0xF, .num 65536]⟩ = .ok (.hdrMake true 0xF 65536) ∧
  decode ⟨0x8#4, [.handle 3, .bytes [0x81, 0x05], .num 2]⟩ = .ok (.prsExec 3 [0x81, 0x05] 2) ∧
  decode ⟨0xB#4, [.num 0x37FA213D, .bytes [0x48]]⟩ = .ok (.mskXor 0x37FA213D [0x48]) ∧
  decode ⟨0xC#4, [.num 0x80]⟩ = .ok (.wrHdr defaultDesc)

/-- O4. A step takes the oldest issued command out of the queue and runs it; an image that spells no command is
refused; with nothing issued nothing changes (00_scope.md R6, 60_exceptions.md R215; the queue is the model's,
log 1). -/
def Obligations.StepRunsTheOldestIssuedCommand : Prop :=
  (∀ (s : State) (c : Command) (rest : List Command) (i : Instr),
    s.pending = c :: rest → decode c = .ok i → step s = exec i (s.withPending rest)) ∧
  (∀ (s : State) (c : Command) (rest : List Command) (e : DecodeError),
    s.pending = c :: rest → decode c = .error e → step s = .refused (refusalOf e)) ∧
  (∀ s : State, s.pending = [] → step s = .next s)

/-- O5. A program runs top to bottom: stepping through the issued commands is running them one after another
(30_encoding.md R88, 20_memory.md R61; the queue is the model's, log 1). -/
def Obligations.IssuedProgramRunsTopToBottom : Prop :=
  ∀ (is : List Instr) (s : State),
    core.run is.length (s.load is) = runProgram is (s.withPending [])

/-- O6. Codes 0x0 and 0xD to 0xF are refused as UnassignedCommand whatever operands come with them, and no other
code is (30_encoding.md R87, decision D2; 60_exceptions.md R205, decision D26). -/
def Obligations.UnassignedCodesAreRefused : Prop :=
  ∀ (s : State) (code : BitVec 4) (ops : List Operand) (rest : List Command),
    s.pending = ⟨code, ops⟩ :: rest →
      (step s = .refused .unassignedCommand ↔ code.toNat = 0 ∨ 13 ≤ code.toNat)

/-- O7. An operand outside its type is refused as OperandOutOfType, and no in-type operand is
(30_encoding.md R86; 60_exceptions.md R205, decision D26; the operand layout is the model's, log 3). -/
def Obligations.OperandsOutsideTheirTypeAreRefused : Prop :=
  ∀ (h n m k : Nat) (bs : List Nat),
    (decode ⟨0x1#4, [.handle h, .num n]⟩ = .error .operandOutOfType ↔ 16 ≤ n) ∧
    (decode ⟨0x2#4, [.handle h, .num n]⟩ = .error .operandOutOfType ↔ 0xFF < n) ∧
    (decode ⟨0x4#4, [.num n, .num m, .num k]⟩ = .error .operandOutOfType ↔
      1 < n ∨ 0xF < m ∨ 2 ^ 64 ≤ k) ∧
    (decode ⟨0x5#4, [.num n]⟩ = .error .operandOutOfType ↔ 2 ^ 112 ≤ n) ∧
    (decode ⟨0x7#4, [.handle h, .num n]⟩ = .error .operandOutOfType ↔ 0xFF < n) ∧
    (decode ⟨0x8#4, [.handle h, .bytes bs, .num n]⟩ = .error .operandOutOfType ↔ ∃ b ∈ bs, 0xFF < b) ∧
    (decode ⟨0xB#4, [.num n, .bytes bs]⟩ = .error .operandOutOfType ↔ 2 ^ 32 ≤ n ∨ ∃ b ∈ bs, 0xFF < b) ∧
    (decode ⟨0xC#4, [.num n]⟩ = .error .operandOutOfType ↔ 2 ^ 112 ≤ n)

/-- O8. A command completes exactly when none of R205's refusals applies: no header, opcode, RSV bit, length or
descriptor is turned away by its content (60_exceptions.md R204, R205, decision D26; 30_encoding.md R83). -/
def Obligations.CommandCompletesUnlessItsPreconditionFails : Prop :=
  ∀ (i : Instr) (s : State),
    ((∃ t, exec i s = .next t) ↔ i.wellFormed = true ∧ ∀ a b, i = .accAdd a b → s.acc a ≠ none) ∧
    (∀ a n, i = .accReset a n → 8 < n.toNat → exec i s = .refused .capacityTooLarge) ∧
    (∀ p buf len, i = .prsExec p buf len → buf.length < len → exec i s = .refused .lengthBeyondBuffer) ∧
    (∀ a b, i = .accAdd a b → s.acc a = none → exec i s = .refused .noInstance)

/-! ### The descriptor -/

/-- O9. DEFAULT_DESC, its packed image, and that every reset produces it (10_state.md R25). -/
def Obligations.DefaultDescriptorHasOnlyFinSet : Prop :=
  defaultDesc = ⟨true, false, false, false, 0x0, false, 0, 0, 0⟩ ∧ packDesc defaultDesc = 0x80#112 ∧
  ∀ (p : Handle) (s t : State), exec (.prsReset p) s = .next t → (t.parser p).d = defaultDesc

/-- O10. The packed image: byte 0 of the wire header in bits 7:0, byte 1 in bits 15:8, EXT in 79:16, KEY in 111:80;
every image is a descriptor's, and only one's (10_state.md R23, decision D20). -/
def Obligations.PackedImageHoldsTheWireBytes : Prop :=
  (∀ d : Desc,
    (packDesc d).extractLsb' 0 8 = byte0 d ∧ (packDesc d).extractLsb' 8 8 = byte1 d ∧
    (packDesc d).extractLsb' 16 64 = d.ext ∧ (packDesc d).extractLsb' 80 32 = d.key ∧
    unpackDesc (packDesc d) = d) ∧
  (∀ w : BitVec 112, packDesc (unpackDesc w) = w)

/-- O11. The layout of header bytes 0 and 1 as sums of weighted fields (30_encoding.md R71, R72). -/
def Obligations.HeaderBytesWeighTheirFields : Prop :=
  ∀ d : Desc,
    (byte0 d).toNat = d.fin.toNat * 128 + d.rsv1.toNat * 64 + d.rsv2.toNat * 32 + d.rsv3.toNat * 16
      + d.opcode.toNat ∧
    (byte1 d).toNat = d.mask.toNat * 128 + d.plen.toNat

/-- O12. The effective payload length (41_descriptor.md R124): PLEN below 126 whatever EXT holds, else EXT
unchecked; and a descriptor the parser produced with PLEN = 126 has EXT below 65536: after any command that completes
in a state within the invariant (which every step keeps, O48), each parser's descriptor has that bound. -/
def Obligations.EffectiveLengthFollowsTheThreeWayRule : Prop :=
  (∀ d : Desc,
    (d.plen.toNat < 126 → (effLen d).toNat = d.plen.toNat) ∧
    (d.plen.toNat = 126 → effLen d = d.ext) ∧
    (d.plen.toNat = 127 → effLen d = d.ext)) ∧
  ∀ (i : Instr) (s t : State) (p : Handle), s.inv = true → exec i s = .next t →
    (t.parser p).d.plen.toNat = 126 → (t.parser p).d.ext.toNat < 65536

/-- O13. The narrowest length encoding (41_descriptor.md R125). -/
def Obligations.LengthEncodingIsTheNarrowest : Prop :=
  ∀ len : BitVec 64,
    (len.toNat < 126 → (encLen len).1.toNat = len.toNat ∧ (encLen len).2 = 0) ∧
    (126 ≤ len.toNat → len.toNat ≤ 65535 → (encLen len).1.toNat = 126 ∧ (encLen len).2 = len) ∧
    (65535 < len.toNat → (encLen len).1.toNat = 127 ∧ (encLen len).2 = len)

/-- O14. `effLen` undoes HDR.MAKE, whose descriptors are compliant and wire-exact, with MASK = 0
(41_descriptor.md R126, 44_writer.md R194, the spec's derivations). -/
def Obligations.MadeDescriptorKeepsItsLengthAndIsCompliant : Prop :=
  ∀ (fin : Bool) (op : BitVec 4) (len : BitVec 64),
    effLen (makeDesc fin op len) = len ∧ compliant (makeDesc fin op len) = true ∧
    wireExact (makeDesc fin op len) = true ∧ wireHeader (makeDesc fin op len) = writeHeader (makeDesc fin op len)

/-- O15. HDR.DEFAULT, HDR.MAKE and HDR.EFFLEN complete in every state and change no unit
(41_descriptor.md R121 to R123, decision D16 for the fields HDR.MAKE does not take; result field: log 2). -/
def Obligations.HeaderModelCommandsComplete : Prop :=
  ∀ s : State,
    (∃ t, exec .hdrDefault s = .next t ∧ t.result = .desc defaultDesc ∧ s.sameUnits t) ∧
    (∀ fin op len, ∃ t d, exec (.hdrMake fin op len) s = .next t ∧ t.result = .desc d ∧
      d.fin = fin ∧ d.opcode = op ∧ d.plen = (encLen len).1 ∧ d.ext = (encLen len).2 ∧
      d.rsv1 = false ∧ d.rsv2 = false ∧ d.rsv3 = false ∧ d.mask = false ∧ d.key = 0 ∧ s.sameUnits t) ∧
    (∀ d, ∃ t, exec (.hdrEfflen d) s = .next t ∧ t.result = .length (effLen d) ∧ s.sameUnits t)

/-! ### The accumulator -/

/-- O16. ACC.RESET constructs or resets the instance it names and touches nothing else; a capacity above 8 is
refused (40_accumulator.md R101, decisions D4 and D6; result field: log 2). -/
def Obligations.AccResetCompletes : Prop :=
  ∀ (a : Handle) (n : BitVec 4) (s : State),
    (n.toNat ≤ 8 → ∃ t A, exec (.accReset a n) s = .next t ∧ t.acc a = some A ∧
      A.cap = n.toNat ∧ A.cnt = 0 ∧ (∀ j : Fin 8, A.buf[j] = 0) ∧ full A = (n == 0) ∧
      t.result = .done ∧ s.onlyAcc a t) ∧
    (8 < n.toNat → exec (.accReset a n) s = .refused .capacityTooLarge)

/-- O17. ACC.ADD on an instance that is not full stores the byte after the ones before it, reports whether the
instance is now full, and touches nothing else (40_accumulator.md R102; result field: log 2). -/
def Obligations.AccAddStoresTheNextByte : Prop :=
  ∀ (a : Handle) (b : Byte) (s : State) (A : Accum),
    s.acc a = some A → accumInv A = true → A.cnt ≠ A.cap →
      ∃ t A', exec (.accAdd a b) s = .next t ∧ t.acc a = some A' ∧
        A'.cap = A.cap ∧ A'.cnt = A.cnt + 1 ∧
        A'.buf.toList.take A'.cnt = A.buf.toList.take A.cnt ++ [b] ∧ accumInv A' = true ∧
        t.result = .added (A'.cnt == A'.cap) .ok ∧ s.onlyAcc a t

/-- O18. ACC.ADD on a full instance stores nothing and returns full = 1 with FrameSizeOverflow, now and at every
further ACC.ADD (40_accumulator.md R102, 60_exceptions.md R201, decision D5; result field: log 2). -/
def Obligations.AccAddOverflowChangesNothing : Prop :=
  ∀ (a : Handle) (b b' : Byte) (s : State) (A : Accum),
    s.acc a = some A → A.cnt = A.cap →
      ∃ t, exec (.accAdd a b) s = .next t ∧ t.acc a = some A ∧
        t.result = .added true .frameSizeOverflow ∧ s.onlyAcc a t ∧
        ∃ u, exec (.accAdd a b') t = .next u ∧ u.acc a = some A ∧
          u.result = .added true .frameSizeOverflow ∧ s.onlyAcc a u

/-- O19. The exactly-N law: after ACC.RESET with capacity N, adds 1 to N-1 return 0, add N returns full, add N+1
overflows, "on that exact byte, not earlier or later"; the full instance reads big-endian
(40_accumulator.md R103, R104, the spec's derivation; result field: log 2). -/
def Obligations.AccumulatorTakesExactlyNBytes : Prop :=
  ∀ (a : Handle) (n : BitVec 4) (bs : Bytes) (b : Byte) (s : State),
    n.toNat ≤ 8 → bs.length ≤ n.toNat →
      ∃ t A, runProgram (.accReset a n :: bs.map (.accAdd a)) s = .next t ∧ t.acc a = some A ∧
        A.cap = n.toNat ∧ A.cnt = bs.length ∧ (bs.length = n.toNat → accBE A = be bs) ∧
        ∃ u, exec (.accAdd a b) t = .next u ∧
          u.result = (if bs.length < n.toNat then .added (bs.length + 1 == n.toNat) .ok
                      else .added true .frameSizeOverflow)

/-! ### The byte step of the parser -/

/-- O20. The step in AWAIT_FIRST (42_parser.md R143): the bits of byte 0 go to FIN, RSV1 to RSV3 and OPCODE, no
value is rejected, nothing else of the descriptor or the accumulator changes. -/
def Obligations.FirstByteGivesFlagsAndOpcode : Prop :=
  ∀ (P : Prs) (b : Byte), P.st = .awaitFirst →
    ∃ P', prsStep P b = ⟨P', 1, .ok⟩ ∧ P'.st = .awaitSecond ∧
      P'.d.fin = b.getLsbD 7 ∧ P'.d.rsv1 = b.getLsbD 6 ∧ P'.d.rsv2 = b.getLsbD 5 ∧ P'.d.rsv3 = b.getLsbD 4 ∧
      P'.d.opcode.toNat = b.toNat % 16 ∧ P'.d.mask = P.d.mask ∧ P'.d.plen = P.d.plen ∧ P'.d.ext = P.d.ext ∧
      P'.d.key = P.d.key ∧ P'.acc = P.acc

/-- O21. The step in AWAIT_SECOND (42_parser.md R144): byte 1 gives MASK and PLEN; 126 and 127 arm the accumulator
with 2 and 8 for AWAIT_EXT; otherwise MASK chooses AWAIT_KEY with 4 or HEADER_COMPLETE. -/
def Obligations.SecondByteChoosesWhatFollows : Prop :=
  ∀ (P : Prs) (b : Byte), P.st = .awaitSecond →
    ∃ P', prsStep P b = ⟨P', 1, .ok⟩ ∧
      P'.d = { P.d with mask := b.getLsbD 7, plen := P'.d.plen } ∧ P'.d.plen.toNat = b.toNat % 128 ∧
      (b.toNat % 128 = 126 → P'.st = .awaitExt ∧ P'.acc = accReset 2) ∧
      (b.toNat % 128 = 127 → P'.st = .awaitExt ∧ P'.acc = accReset 8) ∧
      (b.toNat % 128 < 126 → b.getLsbD 7 = true → P'.st = .awaitKey ∧ P'.acc = accReset 4) ∧
      (b.toNat % 128 < 126 → b.getLsbD 7 = false → P'.st = .headerComplete ∧ P'.acc = P.acc)

/-- O22. The steps in AWAIT_EXT and AWAIT_KEY (42_parser.md R145, R146, R148, decision D8): each byte is stored;
EXT or KEY stays as it is until the byte that fills the accumulator, and is then its big-endian value. -/
def Obligations.FieldIsWrittenByTheByteThatFillsIt : Prop :=
  ∀ (P : Prs) (b : Byte), accumInv P.acc = true → P.acc.cnt < P.acc.cap →
    (P.st = .awaitExt → ∃ P', prsStep P b = ⟨P', 1, .ok⟩ ∧
      (P.acc.cnt + 1 < P.acc.cap → P'.st = .awaitExt ∧ P'.d = P.d ∧ P'.acc.cap = P.acc.cap ∧
        P'.acc.buf.toList.take P'.acc.cnt = P.acc.buf.toList.take P.acc.cnt ++ [b]) ∧
      (P.acc.cnt + 1 = P.acc.cap →
        P'.d = { P.d with ext := BitVec.ofNat 64 (be (P.acc.buf.toList.take P.acc.cnt ++ [b])) } ∧
        (P.d.mask = true → P'.st = .awaitKey ∧ P'.acc = accReset 4) ∧
        (P.d.mask = false → P'.st = .headerComplete))) ∧
    (P.st = .awaitKey → ∃ P', prsStep P b = ⟨P', 1, .ok⟩ ∧
      (P.acc.cnt + 1 < P.acc.cap → P'.st = .awaitKey ∧ P'.d = P.d ∧ P'.acc.cap = P.acc.cap ∧
        P'.acc.buf.toList.take P'.acc.cnt = P.acc.buf.toList.take P.acc.cnt ++ [b]) ∧
      (P.acc.cnt + 1 = P.acc.cap →
        P'.d = { P.d with key := BitVec.ofNat 32 (be (P.acc.buf.toList.take P.acc.cnt ++ [b])) } ∧
        P'.st = .headerComplete))

/-- O23. Entry to FAILED: an overfed inner accumulator moves the parser to FAILED with P.d and P.acc as they were
and the byte not counted, by PRS.BYTE and by PRS.EXEC of any nonempty buffer (60_exceptions.md R202, R203,
decisions D3 and D11; result field: log 2). -/
def Obligations.OverfedParserEntersFailed : Prop :=
  ∀ (p : Handle) (s : State) (b : Byte) (buf : Bytes) (len : Nat),
    ((s.parser p).st = .awaitExt ∨ (s.parser p).st = .awaitKey) →
    (s.parser p).acc.cnt = (s.parser p).acc.cap → len ≤ buf.length →
      (∃ t, exec (.prsByte p b) s = .next t ∧ t.parser p = { s.parser p with st := .failed } ∧
        t.result = .fed 0 .frameSizeOverflow ∧ s.onlyParser p t) ∧
      (∃ t, exec (.prsExec p (b :: buf) (len + 1)) s = .next t ∧ t.parser p = { s.parser p with st := .failed } ∧
        t.result = .fed 0 .frameSizeOverflow ∧ s.onlyParser p t)

/-- O24. In FAILED a PRS.BYTE or PRS.EXEC consumes nothing, changes nothing and reports FrameSizeOverflow again; in
HEADER_COMPLETE it consumes nothing, changes nothing and returns OK (42_parser.md R147, decisions D9 and D10;
70_reset_and_hazards.md R235; result field: log 2). -/
def Obligations.TerminalParserConsumesNothing : Prop :=
  ∀ (p : Handle) (s : State) (b : Byte) (buf : Bytes) (len : Nat), len ≤ buf.length →
    ((s.parser p).st = .failed →
      (∃ t, exec (.prsByte p b) s = .next t ∧ t.parser p = s.parser p ∧ t.result = .fed 0 .frameSizeOverflow ∧
        s.onlyParser p t) ∧
      (∃ t, exec (.prsExec p buf len) s = .next t ∧ t.parser p = s.parser p ∧
        t.result = .fed 0 .frameSizeOverflow ∧ s.onlyParser p t)) ∧
    ((s.parser p).st = .headerComplete →
      (∃ t, exec (.prsByte p b) s = .next t ∧ t.parser p = s.parser p ∧ t.result = .fed 0 .ok ∧
        s.onlyParser p t) ∧
      (∃ t, exec (.prsExec p buf len) s = .next t ∧ t.parser p = s.parser p ∧ t.result = .fed 0 .ok ∧
        s.onlyParser p t))

/-- O25. Which descriptor fields a byte step may write, by state: FIN, RSV and OPCODE in AWAIT_FIRST, MASK and PLEN
in AWAIT_SECOND, EXT in AWAIT_EXT, KEY in AWAIT_KEY, none elsewhere (10_state.md R33). -/
def Obligations.DescriptorFieldsHaveOneWritingState : Prop :=
  ∀ (P : Prs) (b : Byte),
    (P.st ≠ .awaitFirst →
      (prsStep P b).prs.d.fin = P.d.fin ∧ (prsStep P b).prs.d.rsv1 = P.d.rsv1 ∧
      (prsStep P b).prs.d.rsv2 = P.d.rsv2 ∧ (prsStep P b).prs.d.rsv3 = P.d.rsv3 ∧
      (prsStep P b).prs.d.opcode = P.d.opcode) ∧
    (P.st ≠ .awaitSecond → (prsStep P b).prs.d.mask = P.d.mask ∧ (prsStep P b).prs.d.plen = P.d.plen) ∧
    (P.st ≠ .awaitExt → (prsStep P b).prs.d.ext = P.d.ext) ∧
    (P.st ≠ .awaitKey → (prsStep P b).prs.d.key = P.d.key)

/-! ### The parser commands -/

/-- O26. PRS.RESET starts a new parse cycle from every state, FAILED included (42_parser.md R141, decision D7 for
P.acc; 60_exceptions.md R206; result field: log 2). -/
def Obligations.PrsResetCompletesInEveryState : Prop :=
  ∀ (p : Handle) (s : State), ∃ t, exec (.prsReset p) s = .next t ∧
    (t.parser p).st = .awaitFirst ∧ (t.parser p).d = defaultDesc ∧ (t.parser p).acc.cap = 0 ∧
    (t.parser p).acc.cnt = 0 ∧ (∀ j : Fin 8, (t.parser p).acc.buf[j] = 0) ∧
    headerParsed (t.parser p) = false ∧ failed (t.parser p) = false ∧ t.result = .done ∧ s.onlyParser p t

/-- O27. PRS.BYTE is one byte step of the parser it names (42_parser.md R149; result field: log 2). -/
def Obligations.PrsByteCompletesWithOneStep : Prop :=
  ∀ (p : Handle) (b : Byte) (s : State), ∃ t, exec (.prsByte p b) s = .next t ∧
    t.parser p = (prsStep (s.parser p) b).prs ∧
    t.result = .fed (prsStep (s.parser p) b).consumed (prsStep (s.parser p) b).status ∧ s.onlyParser p t

/-- O28. PRS.BYTE is PRS.EXEC of a one-byte buffer, in every state (42_parser.md R149, the spec's derivation). -/
def Obligations.PrsByteIsPrsExecOfOneByte : Prop :=
  ∀ (p : Handle) (b : Byte) (s : State), exec (.prsByte p b) s = exec (.prsExec p [b] 1) s

/-- O29. PRS.EXEC completes for every length within the buffer and feeds byte after byte: with length 0 nothing is
consumed; otherwise it is a PRS.BYTE of the first byte and, unless that byte was not consumed, a PRS.EXEC of the
rest (42_parser.md R150, decisions D11 and D12; result field: log 2). -/
def Obligations.PrsExecFeedsByteAfterByte : Prop :=
  ∀ (p : Handle) (b : Byte) (buf : Bytes) (len : Nat) (s : State), len ≤ buf.length →
    (∃ t, exec (.prsExec p buf 0) s = .next t ∧ t.parser p = s.parser p ∧ s.onlyParser p t ∧
      t.result = .fed 0 (if (s.parser p).st = .failed then .frameSizeOverflow else .ok)) ∧
    (∃ t u v, exec (.prsByte p b) s = .next t ∧ exec (.prsExec p buf len) t = .next u ∧
      exec (.prsExec p (b :: buf) (len + 1)) s = .next v ∧ s.onlyParser p v ∧
      ((prsStep (s.parser p) b).consumed = 0 → v.parser p = t.parser p ∧ v.result = t.result) ∧
      ((prsStep (s.parser p) b).consumed = 1 → v.parser p = u.parser p ∧
        ∃ n st, u.result = .fed n st ∧ v.result = .fed (n + 1) st))

/-- O30. What PRS.EXEC does depends on no byte of its buffer beyond the ones it consumed, whether it returns OK or
FrameSizeOverflow: not on the bytes past `length`, nor past the header, nor on the value of an offending byte
(20_memory.md R50, R51; 42_parser.md R150; result field: log 2). -/
def Obligations.PrsExecReadsOnlyWhatItConsumes : Prop :=
  ∀ (p : Handle) (buf buf' : Bytes) (len : Nat) (s t : State) (n : Nat) (st : Status),
    len ≤ buf.length → len ≤ buf'.length →
    exec (.prsExec p buf len) s = .next t → t.result = .fed n st → buf'.take n = buf.take n →
      exec (.prsExec p buf' len) s = .next t

/-- O31. FrameSizeOverflow is precise: when PRS.EXEC stops at byte n, the first n bytes have had their full effect,
byte n and the later ones none but the entry to FAILED (60_exceptions.md R208, the spec's derivation; R203). -/
def Obligations.OverflowOfPrsExecIsPrecise : Prop :=
  ∀ (p : Handle) (buf : Bytes) (len n : Nat) (s t : State),
    (s.parser p).st ≠ .failed → exec (.prsExec p buf len) s = .next t →
    t.result = .fed n .frameSizeOverflow →
      n < len ∧ ∃ u, exec (.prsExec p buf n) s = .next u ∧ u.result = .fed n .ok ∧
        t.parser p = { u.parser p with st := .failed }

/-- O32. PRS.EXEC takes at most min(length, 14) bytes from any parser that commands can bring about
(70_reset_and_hazards.md R245, the spec's derivation). -/
def Obligations.PrsExecConsumesAtMostAHeader : Prop :=
  ∀ (p : Handle) (buf : Bytes) (len n : Nat) (st : Status) (s t : State),
    s.inv = true → exec (.prsExec p buf len) s = .next t → t.result = .fed n st →
      n ≤ len ∧ n ≤ 14

/-- O33. PRS.PARSED and PRS.MSG complete in every state, return the flag and the descriptor, and change nothing
(42_parser.md R152, R153, decision D23; result field: log 2). -/
def Obligations.PrsParsedAndPrsMsgRead : Prop :=
  ∀ (p : Handle) (s : State),
    (∃ t r, exec (.prsParsed p) s = .next t ∧ t.result = .flag r ∧
      (r = true ↔ (s.parser p).st = .headerComplete) ∧ s.sameUnits t) ∧
    (∃ t, exec (.prsMsg p) s = .next t ∧ t.result = .desc (s.parser p).d ∧ s.sameUnits t)

/-- O34. Chunking confluence: however a stream is split, feeding the chunks ends in the parser, and consumes the
total, of feeding it in one PRS.EXEC (42_parser.md R151, the spec's derivation). -/
def Obligations.ChunkingDoesNotMatter : Prop :=
  ∀ (p : Handle) (chunks : List Bytes) (s : State),
    ∃ t n u st, feedChunks p chunks s = some (t, n) ∧
      exec (.prsExec p chunks.flatten chunks.flatten.length) s = .next u ∧ u.result = .fed n st ∧
      (∀ q, t.parser q = u.parser q) ∧ (∀ a, t.acc a = u.acc a) ∧ t.pending = u.pending

/-- O35. Consumption laws: from reset, a stream shorter than its header is consumed whole and does not complete
it; a longer one completes it and is consumed up to `hdrLen` of its byte 1 (42_parser.md R154, 30_encoding.md R79,
the spec's derivations). -/
def Obligations.StreamIsConsumedUpToTheHeaderLength : Prop :=
  ∀ (p : Handle) (chunks : List Bytes) (s : State), s.parser p = initialPrs →
    ∃ t n, feedChunks p chunks s = some (t, n) ∧
      (∀ b0 b1 rest, chunks.flatten = b0 :: b1 :: rest → hdrLen b1 ≤ chunks.flatten.length →
        n = hdrLen b1 ∧ (t.parser p).st = .headerComplete) ∧
      (∀ b0 b1 rest, chunks.flatten = b0 :: b1 :: rest → chunks.flatten.length < hdrLen b1 →
        n = chunks.flatten.length ∧ (t.parser p).st ≠ .headerComplete) ∧
      (chunks.flatten.length < 2 → n = chunks.flatten.length ∧ (t.parser p).st ≠ .headerComplete)

/-- O36. A PRS.EXEC that consumes less than its length leaves the parser in HEADER_COMPLETE or FAILED, so the caller
learns of completion from the parsed flag (42_parser.md R154, 70_reset_and_hazards.md R237, the spec's
derivations; 90_conflicts.md C5). -/
def Obligations.ShortConsumptionMeansCompleteOrFailed : Prop :=
  ∀ (p : Handle) (buf : Bytes) (len n : Nat) (st : Status) (s t : State),
    exec (.prsExec p buf len) s = .next t → t.result = .fed n st → n < len →
      (t.parser p).st = .headerComplete ∨ (t.parser p).st = .failed

/-! ### The mask cipher -/

/-- O37. The transform of MSK.XOR (43_mask.md R180): as many bytes as before, byte i XORed with the key byte
i mod 4 in big-endian order; the spec's example with the corrected key (90_conflicts.md C1). -/
def Obligations.MaskXorsEachByteWithItsKeyByte : Prop :=
  ∀ (key : BitVec 32) (data : Bytes),
    (maskXor key data).length = data.length ∧
    (∀ i (h : i < data.length),
      (maskXor key data)[i]? = some (data[i] ^^^ (bytesBE 4 key.toNat).getD (i % 4) 0)) ∧
    maskXor 0 data = data ∧ maskXor key [] = [] ∧
    maskXor 0x37FA213D [0x48, 0x65, 0x6C, 0x6C, 0x6F] = [0x7F, 0x9F, 0x4D, 0x51, 0x58]

/-- O38. MSK.XOR completes in every state, for every key and data, and changes nothing but its data operand, which
its result returns (43_mask.md R180, 20_memory.md R52, R58; result field: log 2, log 13). -/
def Obligations.MskXorCompletes : Prop :=
  ∀ (key : BitVec 32) (data : Bytes) (s : State), ∃ t out, exec (.mskXor key data) s = .next t ∧
    t.result = .bytes out ∧ out.length = data.length ∧
    (∀ i (h : i < data.length), out[i]? = some (data[i] ^^^ keyByte key (i % 4))) ∧ s.sameUnits t

/-- O39. Involution: masking twice with one key restores the data, for every length (43_mask.md R182, the spec's
derivation). -/
def Obligations.MaskingTwiceRestoresTheData : Prop :=
  ∀ (key : BitVec 32) (data : Bytes) (s : State), ∃ t out u,
    exec (.mskXor key data) s = .next t ∧ t.result = .bytes out ∧
    exec (.mskXor key out) t = .next u ∧ u.result = .bytes data

/-- O40. No phase across commands: a later chunk needs the key rotated by its offset; without that the result is
the whole payload's in general only at offsets that are multiples of 4 (43_mask.md R183,
70_reset_and_hazards.md R238, the spec's derivations). -/
def Obligations.MaskingInChunksNeedsARotatedKey : Prop :=
  (∀ (key : BitVec 32) (c1 c2 : Bytes),
    maskXor key (c1 ++ c2) = maskXor key c1 ++ maskXor (rotl32 key (8 * (c1.length % 4))) c2) ∧
  (∀ (key : BitVec 32) (c1 c2 : Bytes), c1.length % 4 = 0 →
    maskXor key (c1 ++ c2) = maskXor key c1 ++ maskXor key c2) ∧
  (∀ c1 : Bytes, c1.length % 4 ≠ 0 →
    ∃ (key : BitVec 32) (c2 : Bytes), maskXor key (c1 ++ c2) ≠ maskXor key c1 ++ maskXor key c2)

/-- O41. The key order on the wire: whatever the form of a masked header, and in whatever chunks its bytes are fed
from reset, a key parsed from the wire bytes w0 w1 w2 w3 makes MSK.XOR use wire byte i mod 4 for payload byte i
(43_mask.md R181, the spec's derivation; 42_parser.md R146). `e` is the extended length that byte 1 announces. -/
def Obligations.ParsedKeyMasksInWireOrder : Prop :=
  ∀ (p : Handle) (b0 b1 w0 w1 w2 w3 : Byte) (e data : Bytes) (chunks : List Bytes) (s : State),
    s.parser p = initialPrs → b1.getLsbD 7 = true → e.length = extLen (b1.extractLsb' 0 7) →
    chunks.flatten = b0 :: b1 :: (e ++ [w0, w1, w2, w3]) →
      ∃ t, feedChunks p chunks s = some (t, 6 + e.length) ∧ (t.parser p).st = .headerComplete ∧
        ∀ i (h : i < data.length),
          (maskXor (t.parser p).d.key data)[i]? = some (data[i] ^^^ [w0, w1, w2, w3].getD (i % 4) 0)

/-! ### The writer -/

/-- O42. What WR.HDR writes (44_writer.md R190): byte 0 and byte 1 as held, then EXT[15:0] in 2 bytes for
PLEN = 126, EXT in 8 bytes for PLEN = 127, nothing else otherwise, all big-endian. -/
def Obligations.WriterEmitsHeaderAndExtension : Prop :=
  ∀ d : Desc, ∃ e : Bytes, writeHeader d = byte0 d :: byte1 d :: e ∧
    (d.plen.toNat < 126 → e = []) ∧
    (d.plen.toNat = 126 → e.length = 2 ∧ be e = d.ext.toNat % 65536) ∧
    (d.plen.toNat = 127 → e.length = 8 ∧ be e = d.ext.toNat)

/-- O43. WR.HDR completes for every descriptor in every state, changes no unit, and its bytes do not depend on the
key (44_writer.md R190, R191, decision D14, R195; result field: log 2). -/
def Obligations.WrHdrCompletesWithoutTheKey : Prop :=
  ∀ (d : Desc) (key : BitVec 32) (s : State), ∃ t out, exec (.wrHdr d) s = .next t ∧ t.result = .bytes out ∧
    out = writeHeader d ∧ out.length = 2 + extLen d.plen ∧ s.sameUnits t ∧
    exec (.wrHdr { d with key := key }) s = .next t

/-- O44. The complete wire header is as long as its byte 1 announces (44_writer.md R192, 30_encoding.md R79, the
spec's derivations). -/
def Obligations.WireHeaderHasTheAnnouncedLength : Prop :=
  ∀ d : Desc, (wireHeader d).length = hdrLen (byte1 d)

/-- O45. Round trip: after PRS.RESET, feeding the wire header of any descriptor in any chunks consumes it whole and
completes the header with what the wire carries of the descriptor: all of it when it is wire-exact
(44_writer.md R193, decision D13; R194, the spec's derivation). -/
def Obligations.WireHeaderParsesBack : Prop :=
  ∀ (d : Desc) (p : Handle) (chunks : List Bytes) (s : State), chunks.flatten = wireHeader d →
    ∃ r t, exec (.prsReset p) s = .next r ∧ feedChunks p chunks r = some (t, (wireHeader d).length) ∧
      (t.parser p).st = .headerComplete ∧ (t.parser p).d = asReceived d ∧
      (wireExact d = true → (t.parser p).d = d)

/-- O46. The other direction: whatever bytes complete a header from reset, the wire header of the parsed descriptor
is those bytes again, so reserved opcodes, RSV bits and non-minimal lengths pass through unchanged
(30_encoding.md R75, R81, decision D15, R82, R83; 44_writer.md R192). -/
def Obligations.ParsedHeaderWritesBackItsBytes : Prop :=
  ∀ (p : Handle) (buf : Bytes) (len n : Nat) (st : Status) (s t : State),
    s.parser p = initialPrs → exec (.prsExec p buf len) s = .next t → t.result = .fed n st →
    (t.parser p).st = .headerComplete → wireHeader (t.parser p).d = buf.take n ∧ st = .ok

/-- O47. Reserved opcodes and RSV bits pass through (30_encoding.md R75): whatever byte 0 a parser takes, it is held
as it came, the writer emits it as it is held, and no command that takes a descriptor or an opcode rejects one. -/
def Obligations.FirstByteIsStoredAndEmittedVerbatim : Prop :=
  ∀ (P : Prs) (b : Byte), P.st = .awaitFirst →
    ((prsStep P b).status = .ok ∧ byte0 (prsStep P b).prs.d = b) ∧
    (∀ (d : Desc) (s : State), (writeHeader d).head? = some (byte0 d) ∧ (∃ t, exec (.wrHdr d) s = .next t) ∧
      ∃ t, exec (.hdrEfflen d) s = .next t) ∧
    ∀ (fin : Bool) (op : BitVec 4) (len : BitVec 64) (s : State),
      (makeDesc fin op len).opcode = op ∧ ∃ t, exec (.hdrMake fin op len) s = .next t

/-! ### Whole-machine rules -/

/-- O48. Every step keeps the invariant: accumulators within their bounds with zero unused bytes
(10_state.md R26), parsers as their state says and never FAILED (R29, 42_parser.md R155, the spec's derivations),
instance tables in canonical form (log 4). -/
def Obligations.StepKeepsTheInvariant : Prop :=
  ∀ s t : State, s.inv = true → step s = .next t → t.inv = true

/-- O49. The state after reset has the invariant, and every parser in it is as PRS.RESET leaves it
(10_state.md R34; log 4). -/
def Obligations.ResetStateHasTheInvariant : Prop :=
  State.reset.inv = true ∧ ∀ p, State.reset.parser p = initialPrs ∧ State.reset.acc p = none

/-- O50. No program that starts from reset brings a parser to FAILED (42_parser.md R155, the spec's derivation). -/
def Obligations.NoProgramFromResetReachesFailed : Prop :=
  ∀ (cmds : List Command) (k : Nat) (t : State) (p : Handle),
    core.run k (State.reset.withPending cmds) = .next t → (t.parser p).st ≠ .failed

/-- O51. A command changes no parser and no accumulator but the one it names, and only the three commands R33
lists change a parser (00_scope.md R7, 10_state.md R33, 60_exceptions.md R213). -/
def Obligations.CommandChangesOnlyItsInstance : Prop :=
  ∀ (i : Instr) (s t : State), exec i s = .next t →
    (∀ q, i.parserWritten ≠ some q → t.parser q = s.parser q) ∧
    (∀ a, i.accNamed ≠ some a → t.acc a = s.acc a) ∧ t.pending = s.pending

/-- O52. Instances share no state: what a command returns and what it does to the instance it names depend on that
instance alone (00_scope.md R7, 60_exceptions.md R213). -/
def Obligations.CommandDependsOnItsInstanceAlone : Prop :=
  ∀ (i : Instr) (s s' t : State),
    (∀ p, i.parserNamed = some p → s.parser p = s'.parser p) →
    (∀ a, i.accNamed = some a → s.acc a = s'.acc a) → exec i s = .next t →
      ∃ t', exec i s' = .next t' ∧ t'.result = t.result ∧
        (∀ p, i.parserNamed = some p → t'.parser p = t.parser p) ∧
        (∀ a, i.accNamed = some a → t'.acc a = t.acc a)

/-- O53. Two commands on different instances commute (20_memory.md R61, the spec's derivation). -/
def Obligations.CommandsOnDifferentInstancesCommute : Prop :=
  ∀ (i j : Instr) (s s1 s2 : State), i.apart j → exec i s = .next s1 → exec j s = .next s2 →
    ∃ t u, exec j s1 = .next t ∧ exec i s2 = .next u ∧ t.result = s2.result ∧ u.result = s1.result ∧
      (∀ p, t.parser p = u.parser p) ∧ (∀ a, t.acc a = u.acc a) ∧ t.pending = u.pending

/-- O54. One parse cycle covers one header (70_reset_and_hazards.md R231): a parser in HEADER_COMPLETE takes no
byte and is changed by no command but its PRS.RESET, which discards all accumulated state: P.st, P.d and P.acc return
to their reset values (42_parser.md R141). That P.acc is then of capacity 0 with zero bytes is decision D7 (log 8). -/
def Obligations.OnlyPrsResetEndsAParseCycle : Prop :=
  (∀ P : Prs, P.st = .headerComplete →
    (∀ b, (prsStep P b).consumed = 0) ∧ ∀ buf len, (feedBuffer P buf len).consumed = 0) ∧
  ∀ (i : Instr) (p : Handle) (s t : State), exec i s = .next t →
    (i ≠ .prsReset p → (s.parser p).st = .headerComplete → t.parser p = s.parser p) ∧
    (i = .prsReset p → t.parser p = initialPrs)

/-- O55. The state machine only moves forward, by the codes of R28, except by PRS.RESET (42_parser.md R140,
10_state.md R21). -/
def Obligations.ParserStateOnlyMovesForward : Prop :=
  ∀ (i : Instr) (p : Handle) (s t : State), exec i s = .next t → i ≠ .prsReset p →
    prsStateCode (s.parser p).st ≤ prsStateCode (t.parser p).st

/-- O56. Only ACC.ADD, PRS.BYTE and PRS.EXEC can return a status other than OK (60_exceptions.md R200, decision D25;
result field: log 2). -/
def Obligations.OnlyFeedingCommandsReportOverflow : Prop :=
  ∀ (i : Instr) (s t : State), exec i s = .next t → resultStatus t.result = .frameSizeOverflow →
    (∃ a b, i = .accAdd a b) ∨ (∃ p b, i = .prsByte p b) ∨ ∃ p buf len, i = .prsExec p buf len

/-- O57. HDR.DEFAULT, HDR.MAKE, HDR.EFFLEN, WR.HDR, PRS.PARSED and PRS.MSG change no unit, and repeating one gives
the same result (20_memory.md R58, 10_state.md R31; result field: log 2). MSK.XOR changes no unit either; that issuing
it again with the same data operand gives the same result is the model's, whose data operand is a value (log 13).
R58 does not list it there: applied to its own result it restores the data (O39). -/
def Obligations.ReadingCommandsRepeat : Prop :=
  ∀ (i : Instr) (s t : State), i.parserWritten = none → i.accNamed = none → exec i s = .next t →
    s.sameUnits t ∧ exec i t = .next t

/-- O58. Return from FAILED (60_exceptions.md R206): of all commands only the parser's own PRS.RESET leaves FAILED,
for AWAIT_FIRST with DEFAULT_DESC, and any other leaves the parser as it is; further bytes only report again; a full
accumulator stays unchanged and full, and ACC.RESET starts it afresh. -/
def Obligations.OnlyPrsResetLeavesFailed : Prop :=
  (∀ (i : Instr) (p : Handle) (s t : State), exec i s = .next t → (s.parser p).st = .failed →
    ((t.parser p).st ≠ .failed ↔ i = .prsReset p) ∧
    (i = .prsReset p → (t.parser p).st = .awaitFirst ∧ (t.parser p).d = defaultDesc) ∧
    (i ≠ .prsReset p → t.parser p = s.parser p)) ∧
  (∀ (P : Prs) (b : Byte) (buf : Bytes) (len : Nat), P.st = .failed →
    prsStep P b = ⟨P, 0, .frameSizeOverflow⟩ ∧ feedBuffer P buf len = ⟨P, 0, .frameSizeOverflow⟩) ∧
  (∀ (A : Accum) (b : Byte), full A = true → (accAdd A b).acc = A ∧ (accAdd A b).full = true) ∧
  ∀ (a : Handle) (n : BitVec 4) (s t : State), exec (.accReset a n) s = .next t →
    ∃ A, t.acc a = some A ∧ A.cap = n.toNat ∧ A.cnt = 0
end

