-- ==== Sys2Proof/Laws/Tables.lean ====
section
/-! SUPPORT. The laws of the instance tables: reading back what was written, leaving other names alone, and
keeping the canonical form. -/

namespace Sys2Proof.Laws

open Machine

variable {α : Type}

theorem lookup_insert_same (k : Nat) (v : α) (table : List (Nat × α)) :
    lookupName k (insertName k v table) = some v := by
  induction table with
  | nil => simp [insertName, lookupName]
  | cons e rest ih =>
    obtain ⟨j, w⟩ := e
    simp only [insertName]
    split
    · simp [lookupName]
    · split
      · simp [lookupName]
      · have : j ≠ k := fun h => by simp_all
        simp [lookupName, this, ih]

theorem lookup_insert_other {k j : Nat} (h : j ≠ k) (v : α) (table : List (Nat × α)) :
    lookupName j (insertName k v table) = lookupName j table := by
  induction table with
  | nil => simp [insertName, lookupName, h.symm]
  | cons e rest ih =>
    obtain ⟨l, w⟩ := e
    simp only [insertName]
    split
    · simp [lookupName, h.symm]
    · split
      · rename_i hk; subst hk; simp [lookupName, h.symm]
      · simp only [lookupName]; split
        · rfl
        · exact ih

theorem lookup_erase_same (k : Nat) (table : List (Nat × α)) : lookupName k (eraseName k table) = none := by
  induction table with
  | nil => simp [eraseName, lookupName]
  | cons e rest ih =>
    obtain ⟨j, w⟩ := e
    by_cases h : j = k
    · simpa [eraseName, h] using ih
    · simpa [eraseName, h, lookupName] using ih

theorem lookup_erase_other {k j : Nat} (h : j ≠ k) (table : List (Nat × α)) :
    lookupName j (eraseName k table) = lookupName j table := by
  induction table with
  | nil => simp [eraseName]
  | cons e rest ih =>
    obtain ⟨l, w⟩ := e
    by_cases hl : l = k
    · subst hl; simpa [eraseName, lookupName, h.symm] using ih
    · simp only [eraseName, List.filter_cons, hl, ne_eq, not_false_eq_true, decide_true, if_true, lookupName]
      split
      · rfl
      · exact ih

/-- A listed entry is one of the table's. -/
theorem mem_of_lookup {k : Nat} {v : α} {table : List (Nat × α)} (h : lookupName k table = some v) :
    (k, v) ∈ table := by
  induction table with
  | nil => simp [lookupName] at h
  | cons e rest ih =>
    obtain ⟨j, w⟩ := e
    simp only [lookupName] at h
    split at h
    · simp_all
    · simp [ih h]

theorem mem_insert {e : Nat × α} {k : Nat} {v : α} {table : List (Nat × α)}
    (h : e ∈ insertName k v table) : e = (k, v) ∨ e ∈ table := by
  induction table with
  | nil => simpa [insertName] using h
  | cons f rest ih =>
    obtain ⟨j, w⟩ := f
    simp only [insertName] at h
    split at h
    · simpa using h
    · split at h
      · simp only [List.mem_cons] at h ⊢; tauto
      · simp only [List.mem_cons] at h ⊢
        rcases h with h | h
        · tauto
        · rcases ih h with h | h <;> tauto

theorem namesRiseFrom_weaken {m n : Nat} (hmn : m ≤ n) {table : List (Nat × α)}
    (h : namesRiseFrom n table = true) : namesRiseFrom m table = true := by
  cases table with
  | nil => rfl
  | cons e rest =>
    obtain ⟨j, w⟩ := e
    simp only [namesRiseFrom, Bool.and_eq_true, decide_eq_true_eq] at h ⊢
    exact ⟨Nat.le_trans hmn h.1, h.2⟩

theorem namesRiseFrom_insert {m : Nat} {k : Nat} (hk : m ≤ k) (v : α) {table : List (Nat × α)}
    (h : namesRiseFrom m table = true) : namesRiseFrom m (insertName k v table) = true := by
  induction table generalizing m with
  | nil => simp [insertName, namesRiseFrom, hk]
  | cons e rest ih =>
    obtain ⟨j, w⟩ := e
    simp only [namesRiseFrom, Bool.and_eq_true, decide_eq_true_eq] at h
    simp only [insertName]
    split
    · simp only [namesRiseFrom, Bool.and_eq_true, decide_eq_true_eq]
      exact ⟨hk, by omega, h.2⟩
    · split
      · rename_i hkj; subst hkj
        simp [namesRiseFrom, hk, h.2]
      · simp only [namesRiseFrom, Bool.and_eq_true, decide_eq_true_eq]
        exact ⟨h.1, ih (by omega) h.2⟩

theorem namesRiseFrom_erase {m : Nat} (k : Nat) {table : List (Nat × α)}
    (h : namesRiseFrom m table = true) : namesRiseFrom m (eraseName k table) = true := by
  induction table generalizing m with
  | nil => simp [eraseName, namesRiseFrom]
  | cons e rest ih =>
    obtain ⟨j, w⟩ := e
    simp only [namesRiseFrom, Bool.and_eq_true, decide_eq_true_eq] at h
    by_cases hj : j = k
    · have := ih (m := m) (namesRiseFrom_weaken (by omega) h.2)
      simpa [eraseName, hj] using this
    · have := ih h.2
      simpa [eraseName, hj, namesRiseFrom, h.1] using this

theorem namesRise_insert (k : Nat) (v : α) {table : List (Nat × α)} (h : namesRise table = true) :
    namesRise (insertName k v table) = true :=
  namesRiseFrom_insert (Nat.zero_le k) v h

theorem namesRise_erase (k : Nat) {table : List (Nat × α)} (h : namesRise table = true) :
    namesRise (eraseName k table) = true :=
  namesRiseFrom_erase k h

/-- Writing a parser keeps the canonical form of the parser table. -/
theorem prsTableWf_setParser (s : State) (p : Nat) (P : Prs) (h : prsTableWf s.prs = true) :
    prsTableWf (s.setParser p P).prs = true := by
  simp only [prsTableWf, Bool.and_eq_true, List.all_eq_true, bne_iff_ne, ne_eq] at h ⊢
  simp only [State.setParser]
  split
  · refine ⟨namesRise_erase p h.1, fun e he => h.2 e ?_⟩
    exact (List.mem_filter.mp he).1
  · rename_i hP
    refine ⟨namesRise_insert p P h.1, fun e he => ?_⟩
    rcases mem_insert he with rfl | he
    · exact hP
    · exact h.2 e he

/-- Reset lists nothing, which is the canonical form. -/
theorem prsTableWf_reset : prsTableWf State.reset.prs = true := by decide

end Sys2Proof.Laws
end

