-- ==== Sys2Proof/Laws/State.lean ====
section
/-! SUPPORT. One lemma per field and update of `State`, and per accessor and update, so that no later proof unfolds
a record update. -/

namespace Sys2Proof.Laws

open Machine

variable (s t : State) (p q : Handle) (a c : Handle) (P : Prs) (A : Accum) (r : Result)

@[simp] theorem setParser_accs : (s.setParser p P).accs = s.accs := rfl
@[simp] theorem setParser_pending : (s.setParser p P).pending = s.pending := rfl
@[simp] theorem setParser_result : (s.setParser p P).result = s.result := rfl
@[simp] theorem setAcc_prs : (s.setAcc a A).prs = s.prs := rfl
@[simp] theorem setAcc_pending : (s.setAcc a A).pending = s.pending := rfl
@[simp] theorem setAcc_result : (s.setAcc a A).result = s.result := rfl

@[simp] theorem withResult_prs : (s.withResult r).prs = s.prs := rfl
@[simp] theorem withResult_accs : (s.withResult r).accs = s.accs := rfl
@[simp] theorem withResult_pending : (s.withResult r).pending = s.pending := rfl
@[simp] theorem withResult_result : (s.withResult r).result = r := rfl
@[simp] theorem withPending_prs (l : List Command) : (s.withPending l).prs = s.prs := rfl
@[simp] theorem withPending_accs (l : List Command) : (s.withPending l).accs = s.accs := rfl
@[simp] theorem withPending_pending (l : List Command) : (s.withPending l).pending = l := rfl
@[simp] theorem withPending_result (l : List Command) : (s.withPending l).result = s.result := rfl

@[simp] theorem parser_withResult : (s.withResult r).parser p = s.parser p := rfl
@[simp] theorem acc_withResult : (s.withResult r).acc a = s.acc a := rfl
@[simp] theorem parser_withPending (l : List Command) : (s.withPending l).parser p = s.parser p := rfl
@[simp] theorem acc_withPending (l : List Command) : (s.withPending l).acc a = s.acc a := rfl
@[simp] theorem withResult_withResult (r' : Result) : (s.withResult r).withResult r' = s.withResult r' := rfl

@[simp] theorem load_prs (is : List Instr) : (s.load is).prs = s.prs := rfl
@[simp] theorem load_accs (is : List Instr) : (s.load is).accs = s.accs := rfl
@[simp] theorem load_result (is : List Instr) : (s.load is).result = s.result := rfl
@[simp] theorem load_pending (is : List Instr) : (s.load is).pending = is.map encode := rfl

@[simp] theorem withFetchWord_prs (n w : Nat) : (s.withFetchWord n w).prs = s.prs := rfl
@[simp] theorem withFetchWord_accs (n w : Nat) : (s.withFetchWord n w).accs = s.accs := rfl
@[simp] theorem withFetchWord_result (n w : Nat) : (s.withFetchWord n w).result = s.result := rfl
@[simp] theorem withFetchWord_pending (n w : Nat) :
    (s.withFetchWord n w).pending = tableCommand w :: s.pending := rfl

@[simp] theorem acc_setParser : (s.setParser p P).acc a = s.acc a := rfl
@[simp] theorem parser_setAcc : (s.setAcc a A).parser p = s.parser p := rfl

@[simp] theorem parser_setParser_same : (s.setParser p P).parser p = P := by
  simp only [State.parser, State.setParser]
  split
  · rename_i h; simp [lookup_erase_same, h]
  · simp [lookup_insert_same]

theorem parser_setParser_other {q p : Handle} (h : q ≠ p) : (s.setParser p P).parser q = s.parser q := by
  simp only [State.parser, State.setParser]
  split
  · rw [lookup_erase_other h]
  · rw [lookup_insert_other h]

@[simp] theorem acc_setAcc_same : (s.setAcc a A).acc a = some A := by
  simp [State.acc, State.setAcc, lookup_insert_same]

theorem acc_setAcc_other {c a : Handle} (h : c ≠ a) : (s.setAcc a A).acc c = s.acc c := by
  simp [State.acc, State.setAcc, lookup_insert_other h]

/-- Returning a result is a next state that differs in the result alone. -/
theorem returning_next_iff : s.returning r = .next t ↔ t = s.withResult r := by
  simp [State.returning, eq_comm]

end Sys2Proof.Laws
end

