-- ==== Sys2Proof/Laws/Ops.lean ====
section
/-! SUPPORT. What each shared operation can do, said once: the accumulator, the big-endian readings, the byte step
and the loop of PRS.EXEC. Later proofs cite these instead of unfolding the operations. -/

namespace Sys2Proof.Laws

open Machine

/-! ### The accumulator -/

/-- The bytes an accumulator holds, in the order they were added. -/
def held (A : Accum) : Bytes := A.buf.toList.take A.cnt

theorem accumInv_iff (A : Accum) :
    accumInv A = true ↔ A.cnt ≤ A.cap ∧ A.cap ≤ 8 ∧ A.buf.toList.drop A.cnt = List.replicate (8 - A.cnt) 0 := by
  have e : accumInv A = (decide (A.cnt ≤ A.cap) && decide (A.cap ≤ 8)
    && (A.buf.toList.drop A.cnt).all (· == 0)) := rfl
  rw [e]
  simp only [Bool.and_eq_true, decide_eq_true_eq, List.all_eq_true, beq_iff_eq, and_assoc]
  refine and_congr_right fun _ => and_congr_right fun _ => ?_
  rw [List.eq_replicate_iff]
  simp

theorem accAdd_of_full {A : Accum} (h : A.cnt = A.cap) (b : Byte) :
    accAdd A b = ⟨A, true, .frameSizeOverflow⟩ := by
  simp [accAdd, h]

theorem accAdd_of_not_full {A : Accum} (h : A.cnt ≠ A.cap) (b : Byte) :
    accAdd A b =
      ⟨{ A with buf := A.buf.setIfInBounds A.cnt b, cnt := A.cnt + 1 }, A.cnt + 1 == A.cap, .ok⟩ := by
  simp [accAdd, h, full]

theorem held_store {A : Accum} (h : A.cnt < 8) (b : Byte) :
    held { A with buf := A.buf.setIfInBounds A.cnt b, cnt := A.cnt + 1 } = held A ++ [b] := by
  have hl : A.cnt < A.buf.toList.length := by simpa using h
  simp only [held, Vector.toList_setIfInBounds]
  rw [List.take_add_one, List.take_set_of_le (le_refl _), List.getElem?_set_self hl]
  rfl

theorem accumInv_store {A : Accum} (hA : accumInv A = true) (h : A.cnt ≠ A.cap) (b : Byte) :
    accumInv { A with buf := A.buf.setIfInBounds A.cnt b, cnt := A.cnt + 1 } = true := by
  rw [accumInv_iff] at hA ⊢
  obtain ⟨h1, h2, h3⟩ := hA
  refine ⟨by simp only; omega, h2, ?_⟩
  simp only [Vector.toList_setIfInBounds]
  rw [List.drop_set_of_lt (Nat.lt_succ_self _), Nat.succ_eq_add_one, ← List.drop_drop, h3]
  simp [List.drop_replicate]; omega

theorem accumInv_accReset {n : Nat} (h : n ≤ 8) : accumInv (accReset n) = true := by
  rw [accumInv_iff]
  exact ⟨Nat.zero_le _, h, by simp [accReset]⟩

theorem accumInv_accAdd {A : Accum} (hA : accumInv A = true) (b : Byte) :
    accumInv (accAdd A b).acc = true := by
  by_cases h : A.cnt = A.cap
  · rw [accAdd_of_full h]; exact hA
  · rw [accAdd_of_not_full h]; exact accumInv_store hA h b

@[simp] theorem held_accReset (n : Nat) : held (accReset n) = [] := rfl

theorem length_held {A : Accum} (h : A.cnt ≤ 8) : (held A).length = A.cnt := by
  simp [held, h]

/-- A full accumulator reads as the big-endian value of the bytes it holds. -/
theorem accBE_of_full {A : Accum} (h : A.cnt = A.cap) : accBE A = be (held A) := by
  simp [accBE, held, h]

/-! ### Big-endian readings -/

theorem be_append (xs ys : Bytes) : be (xs ++ ys) = be xs * 256 ^ ys.length + be ys := by
  induction xs with
  | nil => simp [be]
  | cons x xs ih => simp only [List.cons_append, be, ih, List.length_append]; ring

theorem be_lt (xs : Bytes) : be xs < 256 ^ xs.length := by
  induction xs with
  | nil => simp [be]
  | cons x xs ih =>
    have hx : x.toNat < 256 := x.isLt
    simp only [be, List.length_cons, Nat.pow_succ]
    nlinarith [Nat.mul_le_mul_right (256 ^ xs.length) (Nat.le_of_lt_succ hx)]

@[simp] theorem length_bytesBE (n v : Nat) : (bytesBE n v).length = n := by
  induction n with
  | zero => rfl
  | succ n ih => simp [bytesBE, ih]

/-- `BE(bytesBE_n(v)) = v` for every v < 256^n (R11), and the low n bytes of v in general. -/
theorem be_bytesBE (n v : Nat) : be (bytesBE n v) = v % 256 ^ n := by
  induction n with
  | zero => simp [bytesBE, be, Nat.mod_one]
  | succ n ih =>
    simp only [bytesBE, be, ih, length_bytesBE, BitVec.toNat_ofNat]
    rw [pow_succ 256 n, Nat.mod_mul, Nat.mul_comm, Nat.add_comm]

theorem bytesBE_be (xs : Bytes) (m : Nat) : bytesBE xs.length (be xs + m * 256 ^ xs.length) = xs := by
  induction xs generalizing m with
  | nil => rfl
  | cons x xs ih =>
    have hpos : 0 < 256 ^ xs.length := Nat.pow_pos (by norm_num)
    have hlt := be_lt xs
    have e : be (x :: xs) + m * 256 ^ (xs.length + 1)
        = be xs + (x.toNat + m * 256) * 256 ^ xs.length := by simp only [be]; ring
    simp only [List.length_cons, bytesBE]
    rw [e, ih, Nat.add_mul_div_right _ _ hpos, Nat.div_eq_of_lt hlt]
    congr 1
    apply BitVec.eq_of_toNat_eq
    simp only [BitVec.toNat_ofNat]
    have := x.isLt
    omega

/-! ### Descriptors -/

section
variable (fin : Bool) (op : BitVec 4) (len : BitVec 64)

@[simp] theorem makeDesc_fin : (makeDesc fin op len).fin = fin := rfl
@[simp] theorem makeDesc_opcode : (makeDesc fin op len).opcode = op := rfl
@[simp] theorem makeDesc_mask : (makeDesc fin op len).mask = false := rfl
@[simp] theorem makeDesc_plen : (makeDesc fin op len).plen = (encLen len).1 := rfl
@[simp] theorem makeDesc_ext : (makeDesc fin op len).ext = (encLen len).2 := rfl
@[simp] theorem makeDesc_key : (makeDesc fin op len).key = 0 := rfl

end

theorem effLen_of_lt {d : Desc} (h : d.plen.toNat < 126) : effLen d = d.plen.setWidth 64 := if_pos h
theorem effLen_of_ge {d : Desc} (h : 126 ≤ d.plen.toNat) : effLen d = d.ext := if_neg (by omega)

theorem compliant_iff (d : Desc) :
    compliant d = true ↔
      (d.plen.toNat < 126 ∧ d.ext = 0) ∨
      (d.plen.toNat = 126 ∧ 126 ≤ d.ext.toNat ∧ d.ext.toNat ≤ 65535) ∨
      (d.plen.toNat = 127 ∧ 65535 < d.ext.toNat) := by
  have := d.plen.isLt
  unfold compliant
  split
  · rename_i h
    rw [beq_iff_eq]
    constructor
    · exact fun e => .inl ⟨h, e⟩
    · rintro (e | e | e)
      · exact e.2
      · omega
      · omega
  · split
    · simp; omega
    · simp; omega

theorem wireExact_iff (d : Desc) :
    wireExact d = true ↔
      (d.plen.toNat < 126 → d.ext = 0) ∧ (d.plen.toNat = 126 → d.ext.toNat < 65536) ∧
      (d.mask = false → d.key = 0) := by
  simp only [wireExact, Bool.and_eq_true, Bool.or_eq_true, decide_eq_true_eq, beq_iff_eq, and_assoc]
  refine and_congr ?_ (and_congr ?_ ?_)
  · rw [or_iff_not_imp_left, Nat.not_le]
  · rw [or_iff_not_imp_left, not_not]
  · cases d.mask <;> simp

/-! ### The byte step -/

/-- The four ways a byte step of a parser that still awaits bytes can go, and the two terminal states, where it
does nothing (42_parser.md R142 to R147). -/
theorem prsStep_cases (P : Prs) (b : Byte) :
    (P.st = .awaitFirst ∧ prsStep P b = stepFirst P b) ∨
    (P.st = .awaitSecond ∧ prsStep P b = stepSecond P b) ∨
    (P.st = .awaitExt ∧ prsStep P b = stepExt P b) ∨
    (P.st = .awaitKey ∧ prsStep P b = stepKey P b) ∨
    (P.st = .headerComplete ∧ prsStep P b = ⟨P, 0, .ok⟩) ∨
    (P.st = .failed ∧ prsStep P b = ⟨P, 0, .frameSizeOverflow⟩) := by
  unfold prsStep
  cases P.st <;> simp

theorem stepExt_of_full {P : Prs} (h : P.acc.cnt = P.acc.cap) (b : Byte) : stepExt P b = enterFailed P := by
  simp [stepExt, accAdd_of_full h]

theorem stepKey_of_full {P : Prs} (h : P.acc.cnt = P.acc.cap) (b : Byte) : stepKey P b = enterFailed P := by
  simp [stepKey, accAdd_of_full h]

/-- The accumulator `A` with one more byte stored, as ACC.ADD stores it. -/
def stored (A : Accum) (b : Byte) : Accum :=
  { A with buf := A.buf.setIfInBounds A.cnt b, cnt := A.cnt + 1 }

@[simp] theorem stored_cap (A : Accum) (b : Byte) : (stored A b).cap = A.cap := rfl
@[simp] theorem stored_cnt (A : Accum) (b : Byte) : (stored A b).cnt = A.cnt + 1 := rfl

theorem stepExt_of_not_full {P : Prs} (h : P.acc.cnt ≠ P.acc.cap) (b : Byte) :
    stepExt P b =
      if P.acc.cnt + 1 = P.acc.cap then
        ⟨afterLength { P with acc := stored P.acc b,
                              d := { P.d with ext := BitVec.ofNat 64 (accBE (stored P.acc b)) } }, 1, .ok⟩
      else ⟨{ P with acc := stored P.acc b }, 1, .ok⟩ := by
  simp only [stepExt, accAdd_of_not_full h, beq_iff_eq, stored]

theorem stepKey_of_not_full {P : Prs} (h : P.acc.cnt ≠ P.acc.cap) (b : Byte) :
    stepKey P b =
      if P.acc.cnt + 1 = P.acc.cap then
        ⟨{ P with acc := stored P.acc b,
                  d := { P.d with key := BitVec.ofNat 32 (accBE (stored P.acc b)) },
                  st := .headerComplete }, 1, .ok⟩
      else ⟨{ P with acc := stored P.acc b }, 1, .ok⟩ := by
  simp only [stepKey, accAdd_of_not_full h, beq_iff_eq, stored]

theorem afterLength_st (P : Prs) :
    (afterLength P).st = if P.d.mask then .awaitKey else .headerComplete := by
  unfold afterLength; split <;> rfl

@[simp] theorem afterLength_d (P : Prs) : (afterLength P).d = P.d := by
  unfold afterLength; split <;> rfl

/-- What a byte step's status and count say: OK with one byte consumed and a parser that has not failed; OK with
none consumed in HEADER_COMPLETE; FrameSizeOverflow with none consumed and nothing but P.st changed. -/
theorem prsStep_outcome (P : Prs) (b : Byte) :
    (P.st ≠ .headerComplete ∧ P.st ≠ .failed ∧ (prsStep P b).status = .ok ∧ (prsStep P b).consumed = 1 ∧
      (prsStep P b).prs.st ≠ .failed) ∨
    (P.st = .headerComplete ∧ prsStep P b = ⟨P, 0, .ok⟩) ∨
    (P.st ≠ .headerComplete ∧ prsStep P b = ⟨{ P with st := .failed }, 0, .frameSizeOverflow⟩) := by
  rcases prsStep_cases P b with ⟨h, e⟩ | ⟨h, e⟩ | ⟨h, e⟩ | ⟨h, e⟩ | ⟨h, e⟩ | ⟨h, e⟩
  · simp [e, h, stepFirst]
  · left
    refine ⟨by simp [h], by simp [h], ?_⟩
    rw [e]; simp only [stepSecond]
    split
    · simp
    · split
      · simp
      · simp only [true_and, afterLength_st]; split <;> simp
  · by_cases hf : P.acc.cnt = P.acc.cap
    · right; right; rw [e, stepExt_of_full hf]; simp [h, enterFailed]
    · left
      refine ⟨by simp [h], by simp [h], ?_⟩
      rw [e, stepExt_of_not_full hf]
      split
      · simp only [true_and, afterLength_st]; split <;> simp
      · simp [h]
  · by_cases hf : P.acc.cnt = P.acc.cap
    · right; right; rw [e, stepKey_of_full hf]; simp [h, enterFailed]
    · left
      refine ⟨by simp [h], by simp [h], ?_⟩
      rw [e, stepKey_of_not_full hf]
      split <;> simp [h]
  · exact .inr (.inl ⟨h, e⟩)
  · right; right; refine ⟨by simp [h], ?_⟩; rw [e, ← h]

/-! ### Feeding a byte sequence -/

/-- PRS.EXEC's loop as a fold over the bytes themselves (42_parser.md R151: "a left fold of `step` over its bytes
that stops at HEADER_COMPLETE or FAILED"). -/
def feedList (P : Prs) : Bytes → Fed
  | [] => ⟨P, 0, .ok⟩
  | b :: bs =>
    if P.st = .headerComplete then ⟨P, 0, .ok⟩
    else
      match (prsStep P b).status with
      | .frameSizeOverflow => ⟨(prsStep P b).prs, 0, .frameSizeOverflow⟩
      | .ok =>
        ⟨(feedList (prsStep P b).prs bs).prs, (feedList (prsStep P b).prs bs).consumed + 1,
          (feedList (prsStep P b).prs bs).status⟩

/-- The index loop of R150 is that fold over the bytes from index `i`. -/
theorem prsLoop_eq_feedList (buf : Bytes) (n i : Nat) (P : Prs) (h : i + n ≤ buf.length) :
    prsLoop buf n i P =
      ⟨(feedList P ((buf.drop i).take n)).prs, i + (feedList P ((buf.drop i).take n)).consumed,
        (feedList P ((buf.drop i).take n)).status⟩ := by
  induction n generalizing i P with
  | zero => simp [prsLoop, feedList]
  | succ n ih =>
    have hi : i < buf.length := by omega
    rw [List.drop_eq_getElem_cons hi]
    simp only [prsLoop, memRead, List.take_succ_cons, feedList, List.getElem?_eq_getElem hi]
    split
    · rfl
    · cases (prsStep P buf[i]).status with
      | frameSizeOverflow => rfl
      | ok => simp only [ih (i + 1) _ (by omega)]; congr 1; omega

/-- What PRS.EXEC does to a parser, when its length is within the buffer. -/
theorem feedBuffer_eq_feedList (P : Prs) (buf : Bytes) (len : Nat) (h : len ≤ buf.length) :
    feedBuffer P buf len =
      if P.st = .failed then ⟨P, 0, .frameSizeOverflow⟩ else feedList P (buf.take len) := by
  unfold feedBuffer
  split
  · rfl
  · rw [prsLoop_eq_feedList buf len 0 P (by omega)]; simp

end Sys2Proof.Laws
end

