-- ==== Sys2Proof/Laws/Exec.lean ====
section
/-! SUPPORT. For each meaning, and for `step`, everything a next state can be. A proof about `exec` or `step` takes
its cases from here. -/

namespace Sys2Proof.Laws

open Machine

variable {s t : State} {p : Handle} {a : Handle}

theorem execAccReset_next {n : BitVec 4} :
    execAccReset a n s = .next t ↔
      n.toNat ≤ 8 ∧ t = (s.setAcc a (accReset n.toNat)).withResult .done := by
  unfold execAccReset
  split
  · rename_i h; simp only [reduceCtorEq, false_iff, Config.accMax] at h ⊢; omega
  · rename_i h; rw [returning_next_iff]; simp only [Config.accMax] at h; simp; omega

theorem execAccAdd_next {b : Byte} :
    execAccAdd a b s = .next t ↔
      ∃ A, s.acc a = some A ∧
        t = (s.setAcc a (accAdd A b).acc).withResult (.added (accAdd A b).full (accAdd A b).status) := by
  unfold execAccAdd
  split
  · rename_i h; simp [h]
  · rename_i A h; simp [h, returning_next_iff]

theorem execHdrDefault_next :
    execHdrDefault s = .next t ↔ t = s.withResult (.desc defaultDesc) :=
  returning_next_iff ..

theorem execHdrMake_next {fin : Bool} {op : BitVec 4} {len : BitVec 64} :
    execHdrMake fin op len s = .next t ↔ t = s.withResult (.desc (makeDesc fin op len)) :=
  returning_next_iff ..

theorem execHdrEfflen_next {d : Desc} :
    execHdrEfflen d s = .next t ↔ t = s.withResult (.length (effLen d)) :=
  returning_next_iff ..

theorem execPrsReset_next :
    execPrsReset p s = .next t ↔ t = (s.setParser p initialPrs).withResult .done :=
  returning_next_iff ..

theorem execPrsByte_next {b : Byte} :
    execPrsByte p b s = .next t ↔
      t = (s.setParser p (prsStep (s.parser p) b).prs).withResult
        (.fed (prsStep (s.parser p) b).consumed (prsStep (s.parser p) b).status) :=
  returning_next_iff ..

theorem execPrsExec_next {buf : Bytes} {len : Nat} :
    execPrsExec p buf len s = .next t ↔
      len ≤ buf.length ∧
        t = (s.setParser p (feedBuffer (s.parser p) buf len).prs).withResult
          (.fed (feedBuffer (s.parser p) buf len).consumed (feedBuffer (s.parser p) buf len).status) := by
  unfold execPrsExec
  split
  · rename_i h; simp only [reduceCtorEq, false_iff]; omega
  · rename_i h; rw [returning_next_iff]; simp; omega

theorem execPrsParsed_next :
    execPrsParsed p s = .next t ↔ t = s.withResult (.flag (headerParsed (s.parser p))) :=
  returning_next_iff ..

theorem execPrsMsg_next :
    execPrsMsg p s = .next t ↔ t = s.withResult (.desc (s.parser p).d) :=
  returning_next_iff ..

theorem execMskXor_next {key : BitVec 32} {data : Bytes} :
    execMskXor key data s = .next t ↔ t = s.withResult (.bytes (maskXor key data)) :=
  returning_next_iff ..

theorem execWrHdr_next {d : Desc} :
    execWrHdr d s = .next t ↔ t = s.withResult (.bytes (writeHeader d)) :=
  returning_next_iff ..

/-- A step that answers a next state either had nothing to run or ran the oldest issued command. -/
theorem step_next (h : step s = .next t) :
    (s.pending = [] ∧ t = s) ∨
    ∃ c rest i, s.pending = c :: rest ∧ decode c = .ok i ∧ exec i (s.withPending rest) = .next t := by
  unfold step at h
  split at h
  · rename_i hp; cases h; exact .inl ⟨hp, rfl⟩
  · rename_i c rest hp
    split at h
    · cases h
    · rename_i i hd; exact .inr ⟨c, rest, i, hp, hd, h⟩

/-- Either the next state's parser of a name is unchanged, or the command was PRS.RESET, PRS.BYTE or PRS.EXEC of
that name and the parser is what that command makes of it; accumulators likewise. -/
theorem exec_next_units {i : Instr} (h : exec i s = .next t) :
    (∀ q, t.parser q = s.parser q ∨
      (i = .prsReset q ∧ t.parser q = initialPrs) ∨
      (∃ b, i = .prsByte q b ∧ t.parser q = (prsStep (s.parser q) b).prs) ∨
      (∃ buf len, i = .prsExec q buf len ∧ len ≤ buf.length ∧
        t.parser q = (feedBuffer (s.parser q) buf len).prs)) ∧
    (∀ c, t.acc c = s.acc c ∨
      (∃ n, i = .accReset c n ∧ n.toNat ≤ 8 ∧ t.acc c = some (accReset n.toNat)) ∨
      (∃ b A, i = .accAdd c b ∧ s.acc c = some A ∧ t.acc c = some (accAdd A b).acc)) ∧
    t.pending = s.pending := by
  cases i with
  | accReset a n =>
    obtain ⟨hn, rfl⟩ := execAccReset_next.mp h
    refine ⟨fun q => .inl rfl, fun c => ?_, rfl⟩
    by_cases hc : c = a
    · subst hc; exact .inr (.inl ⟨n, rfl, hn, by simp⟩)
    · exact .inl (by simp [acc_setAcc_other _ _ hc])
  | accAdd a b =>
    obtain ⟨A, hA, rfl⟩ := execAccAdd_next.mp h
    refine ⟨fun q => .inl rfl, fun c => ?_, rfl⟩
    by_cases hc : c = a
    · subst hc; exact .inr (.inr ⟨b, A, rfl, hA, by simp⟩)
    · exact .inl (by simp [acc_setAcc_other _ _ hc])
  | prsReset p =>
    obtain rfl := execPrsReset_next.mp h
    refine ⟨fun q => ?_, fun c => .inl rfl, rfl⟩
    by_cases hq : q = p
    · subst hq; exact .inr (.inl ⟨rfl, by simp⟩)
    · exact .inl (by simp [parser_setParser_other _ _ hq])
  | prsByte p b =>
    obtain rfl := execPrsByte_next.mp h
    refine ⟨fun q => ?_, fun c => .inl rfl, rfl⟩
    by_cases hq : q = p
    · subst hq; exact .inr (.inr (.inl ⟨b, rfl, by simp⟩))
    · exact .inl (by simp [parser_setParser_other _ _ hq])
  | prsExec p buf len =>
    obtain ⟨hl, rfl⟩ := execPrsExec_next.mp h
    refine ⟨fun q => ?_, fun c => .inl rfl, rfl⟩
    by_cases hq : q = p
    · subst hq; exact .inr (.inr (.inr ⟨buf, len, rfl, hl, by simp⟩))
    · exact .inl (by simp [parser_setParser_other _ _ hq])
  | hdrDefault => obtain rfl := execHdrDefault_next.mp h; exact ⟨fun _ => .inl rfl, fun _ => .inl rfl, rfl⟩
  | hdrMake fin op len => obtain rfl := execHdrMake_next.mp h; exact ⟨fun _ => .inl rfl, fun _ => .inl rfl, rfl⟩
  | hdrEfflen d => obtain rfl := execHdrEfflen_next.mp h; exact ⟨fun _ => .inl rfl, fun _ => .inl rfl, rfl⟩
  | prsParsed p => obtain rfl := execPrsParsed_next.mp h; exact ⟨fun _ => .inl rfl, fun _ => .inl rfl, rfl⟩
  | prsMsg p => obtain rfl := execPrsMsg_next.mp h; exact ⟨fun _ => .inl rfl, fun _ => .inl rfl, rfl⟩
  | mskXor key data => obtain rfl := execMskXor_next.mp h; exact ⟨fun _ => .inl rfl, fun _ => .inl rfl, rfl⟩
  | wrHdr d => obtain rfl := execWrHdr_next.mp h; exact ⟨fun _ => .inl rfl, fun _ => .inl rfl, rfl⟩

end Sys2Proof.Laws
end

