-- ==== Sys2Proof/Laws/PerInstr.lean ====
section
/-! SUPPORT. Statements made per command. `ImageShape` (named in LAWS.json): the image the encoder writes has the
code its row of spec/opcode_table.json gives it and operands of the shapes R86 lists. -/

namespace Sys2Proof.Laws.ImageShape

/-- The image of a command has an assigned code and the operand shapes of that code (30_encoding.md R85, R86). -/
def Statement (i : Instr) : Prop :=
  1 ≤ (encode i).code.toNat ∧ (encode i).code.toNat ≤ 12 ∧
    (encode i).operands.map operandKind = signature (encode i).code

theorem accReset (a : Handle) (n : BitVec 4) : Statement (.accReset a n) :=
  ⟨by simp [encode], by simp [encode], rfl⟩
theorem accAdd (a : Handle) (b : Byte) : Statement (.accAdd a b) :=
  ⟨by simp [encode], by simp [encode], rfl⟩
theorem hdrDefault : Statement .hdrDefault :=
  ⟨by simp [encode], by simp [encode], rfl⟩
theorem hdrMake (fin : Bool) (op : BitVec 4) (len : BitVec 64) : Statement (.hdrMake fin op len) :=
  ⟨by simp [encode], by simp [encode], rfl⟩
theorem hdrEfflen (d : Desc) : Statement (.hdrEfflen d) :=
  ⟨by simp [encode], by simp [encode], rfl⟩
theorem prsReset (p : Handle) : Statement (.prsReset p) :=
  ⟨by simp [encode], by simp [encode], rfl⟩
theorem prsByte (p : Handle) (b : Byte) : Statement (.prsByte p b) :=
  ⟨by simp [encode], by simp [encode], rfl⟩
theorem prsExec (p : Handle) (buf : Bytes) (length : Nat) : Statement (.prsExec p buf length) :=
  ⟨by simp [encode], by simp [encode], rfl⟩
theorem prsParsed (p : Handle) : Statement (.prsParsed p) :=
  ⟨by simp [encode], by simp [encode], rfl⟩
theorem prsMsg (p : Handle) : Statement (.prsMsg p) :=
  ⟨by simp [encode], by simp [encode], rfl⟩
theorem mskXor (key : BitVec 32) (data : Bytes) : Statement (.mskXor key data) :=
  ⟨by simp [encode], by simp [encode], rfl⟩
theorem wrHdr (d : Desc) : Statement (.wrHdr d) :=
  ⟨by simp [encode], by simp [encode], rfl⟩

end Sys2Proof.Laws.ImageShape
end

