-- ==== Sys2Proof/Machine/Assembler.lean ====
section
/-! DEFINITION. The assembler's text form of a command (30_encoding.md R88): "The spec uses this text form to
write command sequences". Nothing in the machine reads it. Where R88 leaves the text open (how a name, a number
or a descriptor value is spelled) the model's spelling is a DESIGN CHOICE (log 14; safe). -/

namespace Sys2Proof.Machine

/-- A hexadecimal digit, upper case. -/
def hexDigit (n : Nat) : Char := "0123456789ABCDEF".toList.getD n '?'

/-- The low `w` hexadecimal digits of `n`, most significant first. -/
def hexDigits : Nat → Nat → List Char
  | 0, _ => []
  | w + 1, n => hexDigit (n / 16 ^ w % 16) :: hexDigits w n

/-- `0xNN…`, the form of a number (R10). -/
def hexText (w n : Nat) : String := "0x" ++ String.ofList (hexDigits w n)

/-- `[xx xx ...]`, the form of a byte sequence (R88). -/
def bytesText (bs : Bytes) : String :=
  "[" ++ " ".intercalate (bs.map fun b => String.ofList (hexDigits 2 b.toNat)) ++ "]"

/-- A flag as 0 or 1 (R10). -/
def flagText (b : Bool) : String := if b then "1" else "0"

/-- `d(FIN,RSV1RSV2RSV3,OPCODE,MASK,PLEN,EXT,KEY)`, the notation of 95_test_vectors.md. -/
def descText (d : Desc) : String :=
  "d(" ++ flagText d.fin ++ "," ++ flagText d.rsv1 ++ flagText d.rsv2 ++ flagText d.rsv3 ++ ","
    ++ hexText 1 d.opcode.toNat ++ "," ++ flagText d.mask ++ "," ++ toString d.plen.toNat ++ ","
    ++ toString d.ext.toNat ++ "," ++ hexText 8 d.key.toNat ++ ")"

/-- The operands of a command, in R88's order. -/
def operandsText : Instr → List String
  | .accReset a n => ["A" ++ toString a, toString n.toNat]
  | .accAdd a b => ["A" ++ toString a, hexText 2 b.toNat]
  | .hdrDefault => []
  | .hdrMake fin op len => [flagText fin, hexText 1 op.toNat, toString len.toNat]
  | .hdrEfflen d => [descText d]
  | .prsReset p => ["P" ++ toString p]
  | .prsByte p b => ["P" ++ toString p, hexText 2 b.toNat]
  | .prsExec p buf length => ["P" ++ toString p, bytesText buf, toString length]
  | .prsParsed p => ["P" ++ toString p]
  | .prsMsg p => ["P" ++ toString p]
  | .mskXor key data => [hexText 8 key.toNat, bytesText data]
  | .wrHdr d => [descText d]

/-- One line of a program: the mnemonic, then the operands separated by commas (R88). -/
def asmText (i : Instr) : String :=
  match operandsText i with
  | [] => mnemonic i
  | ops => mnemonic i ++ " " ++ ", ".intercalate ops

end Sys2Proof.Machine
end

