-- ==== Sys2Proof/Tests/Slice0.lean ====
section
/-! SUPPORT. The model's own tests. Expected values are the spec's: 95_test_vectors.md (A1 to W15, S1 to S6), the
code table of 30_encoding.md R85 and spec/opcode_table.json, and the rules named beside each test. The theorems
`test_meets_…` show, for each obligation with hypotheses, inputs that meet all of them together. -/

namespace Sys2Proof.Tests

open Machine

/-! ### Helpers -/

/-- The state after a command that completes. -/
def nextOf : Outcome → Option State
  | .next t => some t
  | .fault _ => none
  | .refused _ => none

/-- What a command returned. -/
def returned (i : Instr) (s : State) : Option Result := (nextOf (exec i s)).map State.result

/-- The parser of a name after a command. -/
def parserAfter (p : Handle) (i : Instr) (s : State) : Option Prs := (nextOf (exec i s)).map (·.parser p)

/-- The accumulator of a name after a command. -/
def accAfter (a : Handle) (i : Instr) (s : State) : Option Accum := (nextOf (exec i s)).bind (·.acc a)

/-- The reset state with one parser as given. -/
def withPrs (P : Prs) : State := State.reset.setParser 0 P

/-- The reset state with one accumulator as given. -/
def withAcc (A : Accum) : State := State.reset.setAcc 0 A

/-- Row A2: capacity 2 with one byte. -/
def accHalf : Accum := ⟨2, 1, #v[0xAB, 0, 0, 0, 0, 0, 0, 0]⟩

/-- Row A3: capacity 2, full. -/
def accFull : Accum := ⟨2, 2, #v[0xAB, 0xCD, 0, 0, 0, 0, 0, 0]⟩

/-- Row P14: a parser in AWAIT_EXT whose accumulator is already full, which no command brings about. -/
def prsOverfed : Prs := ⟨.awaitExt, { defaultDesc with plen := 126 }, ⟨2, 2, Vector.replicate 8 0⟩⟩

/-- Row P15: the same parser in FAILED. -/
def prsFailed : Prs := { prsOverfed with st := .failed }

/-- Row P9: after byte 0x81. -/
def prsSecond : Prs := ⟨.awaitSecond, { defaultDesc with opcode := 1 }, accReset 0⟩

/-- Row P10: after 81 FE 00. -/
def prsExt : Prs :=
  ⟨.awaitExt, { defaultDesc with opcode := 1, mask := true, plen := 126 }, ⟨2, 1, Vector.replicate 8 0⟩⟩

/-- A masked short header before its last key byte: after 81 85 37 FA 21. -/
def prsKey : Prs :=
  ⟨.awaitKey, { defaultDesc with opcode := 1, mask := true, plen := 5 },
    ⟨4, 3, #v[0x37, 0xFA, 0x21, 0, 0, 0, 0, 0]⟩⟩

/-- Row P1: after 81 05. -/
def prsComplete : Prs := ⟨.headerComplete, { defaultDesc with opcode := 1, plen := 5 }, accReset 0⟩

/-! ### Well-formedness: an ill-formed command for each check, which the check and the machine refuse -/

/-- R205 CapacityTooLarge; row A11. -/
theorem test_wellFormed_refuses_capacity_nine :
    (Instr.accReset 0 9).wellFormed = false ∧ (Instr.accReset 0 8).wellFormed = true := by decide

/-- R205 LengthBeyondBuffer; row P13. -/
theorem test_wellFormed_refuses_length_beyond_buffer :
    (Instr.prsExec 0 [0x81, 0x05, 0x48] 5).wellFormed = false ∧
    (Instr.prsExec 0 [0x81, 0x05, 0x48] 3).wellFormed = true := by decide

theorem test_exec_refuses_capacity_nine :
    exec (.accReset 0 9) State.reset = .refused .capacityTooLarge := rfl

theorem test_exec_refuses_length_beyond_buffer :
    exec (.prsExec 0 [0x81, 0x05, 0x48] 5) State.reset = .refused .lengthBeyondBuffer := rfl

theorem test_exec_refuses_absent_accumulator :
    exec (.accAdd 0 0) State.reset = .refused .noInstance := rfl

/-! ### Decoding: CMD[3:0] written out from R85's table -/

theorem test_decode_ACC_RESET : decode ⟨0b0001#4, [.handle 3, .num 8]⟩ = .ok (.accReset 3 8) := rfl
theorem test_decode_ACC_ADD : decode ⟨0b0010#4, [.handle 3, .num 0xEF]⟩ = .ok (.accAdd 3 0xEF) := rfl
theorem test_decode_HDR_DEFAULT : decode ⟨0b0011#4, []⟩ = .ok .hdrDefault := rfl
theorem test_decode_HDR_MAKE :
    decode ⟨0b0100#4, [.num 0, .num 0xF, .num 0xFFFFFFFFFFFFFFFF]⟩
      = .ok (.hdrMake false 0xF 0xFFFFFFFFFFFFFFFF) := rfl
/-- KEY 0x11223344, EXT 0xDEADBEEF01020304, byte 1 0xFD, byte 0 0x5B (row W12's first bytes; R23). -/
theorem test_decode_HDR_EFFLEN :
    decode ⟨0b0101#4, [.num 0x11223344DEADBEEF01020304FD5B]⟩ = .ok (.hdrEfflen
      ⟨false, true, false, true, 0xB, true, 0x7D, 0xDEADBEEF01020304, 0x11223344⟩) := rfl
theorem test_decode_PRS_RESET : decode ⟨0b0110#4, [.handle 3]⟩ = .ok (.prsReset 3) := rfl
theorem test_decode_PRS_BYTE : decode ⟨0b0111#4, [.handle 3, .num 0x81]⟩ = .ok (.prsByte 3 0x81) := rfl
theorem test_decode_PRS_EXEC :
    decode ⟨0b1000#4, [.handle 3, .bytes [0x81, 0x05], .num 1]⟩ = .ok (.prsExec 3 [0x81, 0x05] 1) := rfl
theorem test_decode_PRS_PARSED : decode ⟨0b1001#4, [.handle 3]⟩ = .ok (.prsParsed 3) := rfl
theorem test_decode_PRS_MSG : decode ⟨0b1010#4, [.handle 3]⟩ = .ok (.prsMsg 3) := rfl
theorem test_decode_MSK_XOR :
    decode ⟨0b1011#4, [.num 0x37FA213D, .bytes [0x48, 0x65]]⟩ = .ok (.mskXor 0x37FA213D [0x48, 0x65]) := rfl
/-- DEFAULT_DESC's image is 0x80 (R25). -/
theorem test_decode_WR_HDR : decode ⟨0b1100#4, [.num 0x80]⟩ = .ok (.wrHdr defaultDesc) := rfl

/-- R87: 0x0 and 0xD to 0xF. -/
theorem test_decode_unassigned :
    decode ⟨0b0000#4, []⟩ = .error .unassignedCommand ∧ decode ⟨0b1101#4, []⟩ = .error .unassignedCommand ∧
    decode ⟨0b1110#4, []⟩ = .error .unassignedCommand ∧ decode ⟨0b1111#4, []⟩ = .error .unassignedCommand :=
  ⟨rfl, rfl, rfl, rfl⟩

/-- R205 OperandOutOfType: a byte above 0xFF, op above 0xF, len of 2^64, key of 2^32, a missing operand. -/
theorem test_decode_out_of_type :
    decode ⟨0x2#4, [.handle 0, .num 0x100]⟩ = .error .operandOutOfType ∧
    decode ⟨0x4#4, [.num 1, .num 0x10, .num 0]⟩ = .error .operandOutOfType ∧
    decode ⟨0x4#4, [.num 1, .num 0, .num 0x10000000000000000]⟩ = .error .operandOutOfType ∧
    decode ⟨0xB#4, [.num 0x100000000, .bytes []]⟩ = .error .operandOutOfType ∧
    decode ⟨0x8#4, [.handle 0, .bytes [0x100], .num 0]⟩ = .error .operandOutOfType ∧
    decode ⟨0x6#4, []⟩ = .error .operandOutOfType := ⟨rfl, rfl, rfl, rfl, rfl, rfl⟩

/-- The table's words decode, and the next step runs them (the opcode table; log 3). -/
theorem test_table_words :
    decodeTableWord 8 0x1 = some (.accReset 0 0) ∧ decodeTableWord 8 0x8 = some (.prsExec 0 [] 0) ∧
    decodeTableWord 8 0xC = some (.wrHdr (unpackDesc 0)) ∧ decodeTableWord 8 0x0 = none ∧
    decodeTableWord 8 0xD = none := ⟨rfl, rfl, rfl, rfl, rfl⟩

theorem test_withFetchWord_runs_HDR_DEFAULT :
    (nextOf (step (State.reset.withFetchWord 8 0x3))).map State.result = some (.desc defaultDesc) := rfl

/-- R88's text form. -/
theorem test_asm :
    asmText (.prsExec 0 [0x81, 0x05] 2) = "PRS.EXEC P0, [81 05], 2" ∧ asmText (.accReset 0 2) = "ACC.RESET A0, 2" ∧
    asmText .hdrDefault = "HDR.DEFAULT" := by decide

/-- R74: 0x0 and 0x1 are the document's; the others are general knowledge (log 15). -/
theorem test_frame_opcode_names :
    frameOpcodeName 0x0 = .continuation ∧ frameOpcodeName 0x1 = .text ∧ frameOpcodeName 0xB = .reserved 0xB := by
  decide

/-- R89: KEY.BYTES 0xDEADBEEF (program 3, line 4), and PRS.FEED1. -/
theorem test_pseudo_commands :
    keyBytes 0xDEADBEEF = [0xDE, 0xAD, 0xBE, 0xEF] ∧
    feed1 0 [0x81, 0x05] = [.prsExec 0 [0x81] 1, .prsExec 0 [0x05] 1] := by decide

/-- R28 and R200: the codes. -/
theorem test_codes :
    prsStateCode .awaitFirst = 0 ∧ prsStateCode .headerComplete = 4 ∧ prsStateCode .failed = 7 ∧
    statusCode .ok = 0 ∧ statusCode .frameSizeOverflow = 1 := by decide

/-! ### ACC -/

/-- Row A10: the prior bytes are discarded. -/
theorem test_accReset_discards :
    accAfter 0 (.accReset 0 4) (withAcc accFull) = some ⟨4, 0, Vector.replicate 8 0⟩ := by decide

/-- Row A3. -/
theorem test_accAdd_fills :
    returned (.accAdd 0 0xCD) (withAcc accHalf) = some (.added true .ok) ∧
    accAfter 0 (.accAdd 0 0xCD) (withAcc accHalf) = some accFull ∧ accBE accFull = 0xABCD := by decide

/-- Rows A4 and A6. -/
theorem test_accAdd_overflows :
    returned (.accAdd 0 0xEF) (withAcc accFull) = some (.added true .frameSizeOverflow) ∧
    accAfter 0 (.accAdd 0 0xEF) (withAcc accFull) = some accFull ∧
    returned (.accAdd 0 0) (withAcc (accReset 0)) = some (.added true .frameSizeOverflow) := by decide

/-! ### HDR -/

/-- Row H1. -/
theorem test_hdrDefault :
    returned .hdrDefault State.reset = some (.desc ⟨true, false, false, false, 0, false, 0, 0, 0⟩) := by decide

/-- Rows H4, H5, H7, H8. -/
theorem test_hdrMake_boundaries :
    encLen 125 = (125, 0) ∧ encLen 126 = (126, 126) ∧ encLen 65535 = (126, 65535) ∧ encLen 65536 = (127, 65536) := by
  decide

/-- Row H9. -/
theorem test_hdrMake :
    returned (.hdrMake false 0xF 0xFFFFFFFFFFFFFFFF) State.reset =
      some (.desc ⟨false, false, false, false, 0xF, false, 127, 0xFFFFFFFFFFFFFFFF, 0⟩) := by decide

/-- Rows H10 and H13. -/
theorem test_hdrEfflen :
    returned (.hdrEfflen { defaultDesc with plen := 5, ext := 999 }) State.reset = some (.length 5) ∧
    returned (.hdrEfflen { defaultDesc with plen := 126, ext := 0x12345 }) State.reset = some (.length 0x12345) := by
  decide

/-! ### PRS -/

/-- Row P16. -/
theorem test_prsReset_leaves_failed : parserAfter 0 (.prsReset 0) (withPrs prsFailed) = some initialPrs := by decide

/-- R143's example: byte 0xF3. -/
theorem test_prsByte_first :
    (parserAfter 0 (.prsByte 0 0xF3) State.reset).map (·.d) =
      some ⟨true, true, true, true, 0x3, false, 0, 0, 0⟩ := by decide

/-- R146's example: the byte 0x3D completes KEY. -/
theorem test_prsByte_last_key_byte :
    (parserAfter 0 (.prsByte 0 0x3D) (withPrs prsKey)).map (fun P => (P.st, P.d.key)) =
      some (.headerComplete, 0x37FA213D) := by decide

/-- Row P2. -/
theorem test_prsExec_masked :
    returned (.prsExec 0 [0x81, 0x85, 0x37, 0xFA, 0x21, 0x3D, 0x7F, 0x9F, 0x4D, 0x51, 0x58] 11) State.reset =
      some (.fed 6 .ok) ∧
    (parserAfter 0 (.prsExec 0 [0x81, 0x85, 0x37, 0xFA, 0x21, 0x3D, 0x7F, 0x9F, 0x4D, 0x51, 0x58] 11)
      State.reset).map (·.d) = some ⟨true, false, false, false, 1, true, 5, 0, 0x37FA213D⟩ := by decide

/-- Row P6: the longest header, with bit 63 of the length set. -/
theorem test_prsExec_longest :
    (parserAfter 0 (.prsExec 0 [0x8A, 0xFF, 0x80, 0, 0, 0, 0, 0, 0, 0, 1, 2, 3, 4] 14) State.reset).map
      (fun P => (P.st, P.d)) =
      some (.headerComplete, ⟨true, false, false, false, 0xA, true, 127, 0x8000000000000000, 0x01020304⟩) := by
  decide

/-- Row P14: the entry to FAILED, with the descriptor unchanged. -/
theorem test_prsExec_enters_failed :
    returned (.prsExec 0 [0x11, 0x22] 2) (withPrs prsOverfed) = some (.fed 0 .frameSizeOverflow) ∧
    parserAfter 0 (.prsExec 0 [0x11, 0x22] 2) (withPrs prsOverfed) = some prsFailed := by decide

/-- Row P15: reported again. -/
theorem test_prsExec_in_failed :
    returned (.prsExec 0 [] 0) (withPrs prsFailed) = some (.fed 0 .frameSizeOverflow) ∧
    returned (.prsByte 0 0) (withPrs prsFailed) = some (.fed 0 .frameSizeOverflow) := by decide

/-- Rows P11, P16 and S2. -/
theorem test_prsParsed :
    returned (.prsParsed 0) (withPrs prsComplete) = some (.flag true) ∧
    returned (.prsParsed 0) (withPrs prsSecond) = some (.flag false) ∧
    returned (.prsParsed 0) (withPrs prsFailed) = some (.flag false) := by decide

/-- Row P10: EXT and KEY still read 0. -/
theorem test_prsMsg_partial :
    returned (.prsMsg 0) (withPrs prsExt) =
      some (.desc ⟨true, false, false, false, 1, true, 126, 0, 0⟩) := by decide

/-! ### MSK -/

/-- Rows M1 and M2 (90_conflicts.md C1). -/
theorem test_mskXor_hello :
    returned (.mskXor 0x37FA213D [0x48, 0x65, 0x6C, 0x6C, 0x6F]) State.reset =
      some (.bytes [0x7F, 0x9F, 0x4D, 0x51, 0x58]) ∧
    returned (.mskXor 0x3D21FA37 [0x48, 0x65, 0x6C, 0x6C, 0x6F]) State.reset =
      some (.bytes [0x75, 0x44, 0x96, 0x5B, 0x52]) := by decide

/-- Rows M7 and M9: the rotated key of a chunk at offset 3. -/
theorem test_mskXor_rotated :
    maskXor 0x01020304 [0, 0, 0, 0, 0, 0] = [1, 2, 3, 4, 1, 2] ∧ rotl32 0x01020304 24 = 0x04010203 ∧
    maskXor 0x04010203 [0, 0, 0] = [4, 1, 2] := by decide

/-! ### WR -/

/-- Rows W8 and W13. -/
theorem test_wrHdr_extensions :
    returned (.wrHdr (makeDesc true 1 65536)) State.reset =
      some (.bytes [0x81, 0x7F, 0, 0, 0, 0, 0, 1, 0, 0]) ∧
    returned (.wrHdr ⟨true, false, false, false, 0, false, 126, 0x12345, 0⟩) State.reset =
      some (.bytes [0x80, 0x7E, 0x23, 0x45]) := by decide

/-- Row W12: no key byte, and the complete wire header. -/
theorem test_wrHdr_without_key :
    returned (.wrHdr ⟨false, true, false, true, 0xB, true, 0x7D, 0, 0x11223344⟩) State.reset =
      some (.bytes [0x5B, 0xFD]) ∧
    wireHeader ⟨false, true, false, true, 0xB, true, 0x7D, 0, 0x11223344⟩ =
      [0x5B, 0xFD, 0x11, 0x22, 0x33, 0x44] := by decide

/-! ### Inputs that meet the hypotheses of each obligation

Where an obligation has several clauses, each clause is met at a boundary value of its range. -/

theorem test_meets_O2 : ∃ c i, decode c = .ok i := ⟨⟨0x7#4, [.handle 0, .num 0xFF]⟩, .prsByte 0 0xFF, rfl⟩

theorem test_meets_O4 :
    (∃ (s : State) (c : Command) (rest : List Command) (i : Instr), s.pending = c :: rest ∧ decode c = .ok i) ∧
    (∃ (s : State) (c : Command) (rest : List Command) (e : DecodeError),
      s.pending = c :: rest ∧ decode c = .error e) ∧
    (∃ s : State, s.pending = []) :=
  ⟨⟨State.reset.load [.hdrDefault], _, [], _, rfl, rfl⟩,
    ⟨State.reset.withPending [⟨0xD#4, []⟩], _, [], _, rfl, rfl⟩, ⟨State.reset, rfl⟩⟩

theorem test_meets_O6 :
    step (State.reset.withPending [⟨0x0#4, [.num 5]⟩]) = .refused .unassignedCommand ∧
    step (State.reset.withPending [⟨0xD#4, []⟩]) = .refused .unassignedCommand ∧
    (nextOf (step (State.reset.withPending [⟨0x1#4, [.handle 0, .num 8]⟩]))).isSome = true ∧
    (nextOf (step (State.reset.withPending [⟨0xC#4, [.num 0]⟩]))).isSome = true := ⟨rfl, rfl, rfl, rfl⟩

theorem test_meets_O8 :
    (8 < (9 : BitVec 4).toNat) ∧ (∃ (buf : Bytes) (len : Nat), buf.length < len) ∧
    State.reset.acc 0 = none ∧ (Instr.accAdd 0 0).wellFormed = true ∧ (withAcc accHalf).acc 0 ≠ none :=
  ⟨by decide, ⟨[0x81], 2, by decide⟩, rfl, rfl, by decide⟩

theorem test_meets_O9 : ∃ p s t, exec (.prsReset p) s = .next t := ⟨0, withPrs prsFailed, _, rfl⟩

theorem test_meets_O12 :
    (∃ d : Desc, d.plen.toNat < 126) ∧ (∃ d : Desc, d.plen.toNat = 126) ∧ (∃ d : Desc, d.plen.toNat = 127) ∧
    ∃ (i : Instr) (s t : State) (p : Handle), s.inv = true ∧ exec i s = .next t ∧
      (t.parser p).d.plen.toNat = 126 ∧ (t.parser p).d.ext = 5 :=
  ⟨⟨{ defaultDesc with plen := 125, ext := 999 }, by decide⟩, ⟨{ defaultDesc with plen := 126 }, by decide⟩,
    ⟨{ defaultDesc with plen := 127 }, by decide⟩,
    ⟨.prsByte 0 0x05, withPrs prsExt, _, 0, by decide, rfl, by decide, by decide⟩⟩

theorem test_meets_O13 :
    (125#64).toNat < 126 ∧ (126 ≤ (126#64).toNat ∧ (126#64).toNat ≤ 65535) ∧
    (126 ≤ (65535#64).toNat ∧ (65535#64).toNat ≤ 65535) ∧ 65535 < (65536#64).toNat := by decide

theorem test_meets_O16 : (0#4).toNat ≤ 8 ∧ (8#4).toNat ≤ 8 ∧ 8 < (9#4).toNat ∧ 8 < (15#4).toNat := by decide

theorem test_meets_O17 :
    ∃ (a : Handle) (s : State) (A : Accum), s.acc a = some A ∧ accumInv A = true ∧ A.cnt ≠ A.cap :=
  ⟨0, withAcc accHalf, accHalf, by decide⟩

theorem test_meets_O18 :
    (∃ (a : Handle) (s : State) (A : Accum), s.acc a = some A ∧ A.cnt = A.cap ∧ A.cap = 0) ∧
    ∃ (a : Handle) (s : State) (A : Accum), s.acc a = some A ∧ A.cnt = A.cap ∧ A.cap = 2 :=
  ⟨⟨0, withAcc (accReset 0), accReset 0, by decide⟩, ⟨0, withAcc accFull, accFull, by decide⟩⟩

theorem test_meets_O19 :
    (∃ (n : BitVec 4) (bs : Bytes), n.toNat ≤ 8 ∧ bs.length = n.toNat) ∧
    ∃ (n : BitVec 4) (bs : Bytes), n.toNat ≤ 8 ∧ bs.length < n.toNat :=
  ⟨⟨8, [1, 2, 3, 4, 5, 6, 7, 8], by decide⟩, ⟨8, [1, 2, 3, 4, 5, 6, 7], by decide⟩⟩

theorem test_meets_O20_O47 : initialPrs.st = .awaitFirst := rfl

theorem test_meets_O21 :
    prsSecond.st = .awaitSecond ∧ (0x7E#8).toNat % 128 = 126 ∧ (0xFF#8).toNat % 128 = 127 ∧
    ((0xFD#8).toNat % 128 < 126 ∧ (0xFD#8).getLsbD 7 = true) ∧
    ((0x7D#8).toNat % 128 < 126 ∧ (0x7D#8).getLsbD 7 = false) := by decide

theorem test_meets_O22 :
    (accumInv prsExt.acc = true ∧ prsExt.st = .awaitExt ∧ prsExt.acc.cnt + 1 = prsExt.acc.cap ∧
      prsExt.d.mask = true) ∧
    (∃ P : Prs, accumInv P.acc = true ∧ P.st = .awaitExt ∧ P.acc.cnt + 1 = P.acc.cap ∧ P.d.mask = false) ∧
    (∃ P : Prs, accumInv P.acc = true ∧ P.st = .awaitExt ∧ P.acc.cnt + 1 < P.acc.cap) ∧
    (accumInv prsKey.acc = true ∧ prsKey.st = .awaitKey ∧ prsKey.acc.cnt + 1 = prsKey.acc.cap) ∧
    ∃ P : Prs, accumInv P.acc = true ∧ P.st = .awaitKey ∧ P.acc.cnt + 1 < P.acc.cap :=
  ⟨by decide, ⟨{ prsExt with d := { defaultDesc with plen := 126 } }, by decide⟩,
    ⟨{ prsExt with acc := accReset 2 }, by decide⟩, by decide, ⟨{ prsKey with acc := accReset 4 }, by decide⟩⟩

theorem test_meets_O23 :
    ∃ (p : Handle) (s : State) (buf : Bytes) (len : Nat),
      ((s.parser p).st = .awaitExt ∨ (s.parser p).st = .awaitKey) ∧
      (s.parser p).acc.cnt = (s.parser p).acc.cap ∧ len ≤ buf.length :=
  ⟨0, withPrs prsOverfed, [0x22], 1, by decide⟩

theorem test_meets_O24 :
    (∃ (p : Handle) (s : State) (buf : Bytes) (len : Nat), len ≤ buf.length ∧ (s.parser p).st = .failed) ∧
    ∃ (p : Handle) (s : State) (buf : Bytes) (len : Nat), len ≤ buf.length ∧ (s.parser p).st = .headerComplete :=
  ⟨⟨0, withPrs prsFailed, [], 0, by decide⟩, ⟨0, withPrs prsComplete, [0x81], 1, by decide⟩⟩

theorem test_meets_O25 :
    prsSecond.st ≠ .awaitFirst ∧ initialPrs.st ≠ .awaitSecond ∧ prsKey.st ≠ .awaitExt ∧ prsExt.st ≠ .awaitKey := by
  decide

theorem test_meets_O29 :
    ∃ (b : Byte) (buf : Bytes) (len : Nat), len ≤ buf.length ∧
      (prsStep (State.reset.parser 0) b).consumed = 1 ∧
      (prsStep ((withPrs prsComplete).parser 0) b).consumed = 0 := ⟨0x81, [0x05], 1, by decide⟩

theorem test_meets_O30 :
    (∃ (p : Handle) (buf buf' : Bytes) (len : Nat) (s t : State) (n : Nat), len ≤ buf.length ∧ len ≤ buf'.length ∧
      exec (.prsExec p buf len) s = .next t ∧ t.result = .fed n .ok ∧ buf'.take n = buf.take n ∧ buf ≠ buf') ∧
    ∃ (p : Handle) (buf buf' : Bytes) (len : Nat) (s t : State) (n : Nat), len ≤ buf.length ∧ len ≤ buf'.length ∧
      exec (.prsExec p buf len) s = .next t ∧ t.result = .fed n .frameSizeOverflow ∧
      buf'.take n = buf.take n ∧ buf ≠ buf' :=
  ⟨⟨0, [0x81, 0x05, 0x48], [0x81, 0x05, 0xFF], 3, State.reset, _, 2, by decide, by decide, rfl, rfl, by decide,
      by decide⟩,
    ⟨0, [0x11, 0x22], [0x33, 0x44], 2, withPrs prsOverfed, _, 0, by decide, by decide, rfl, rfl, by decide,
      by decide⟩⟩

theorem test_meets_O31 :
    ∃ (p : Handle) (buf : Bytes) (len n : Nat) (s t : State), (s.parser p).st ≠ .failed ∧
      exec (.prsExec p buf len) s = .next t ∧ t.result = .fed n .frameSizeOverflow :=
  ⟨0, [0x11, 0x22], 2, 0, withPrs prsOverfed, _, by decide, rfl, rfl⟩

theorem test_meets_O32 :
    ∃ (p : Handle) (buf : Bytes) (len n : Nat) (st : Status) (s t : State), s.inv = true ∧
      exec (.prsExec p buf len) s = .next t ∧ t.result = .fed n st ∧ n = 14 :=
  ⟨0, [0x8A, 0xFF, 0x80, 0, 0, 0, 0, 0, 0, 0, 1, 2, 3, 4, 5], 15, 14, .ok, State.reset, _, by decide, rfl, rfl, rfl⟩

theorem test_meets_O35 :
    State.reset.parser 0 = initialPrs ∧
    (∃ (chunks : List Bytes) (b0 b1 : Byte) (rest : Bytes), chunks.flatten = b0 :: b1 :: rest ∧
      hdrLen b1 = chunks.flatten.length) ∧
    (∃ (chunks : List Bytes) (b0 b1 : Byte) (rest : Bytes), chunks.flatten = b0 :: b1 :: rest ∧
      chunks.flatten.length + 1 = hdrLen b1) ∧
    ∃ chunks : List Bytes, chunks.flatten.length = 1 :=
  ⟨rfl, ⟨[[0x81], [0x7E, 0], [0]], 0x81, 0x7E, [0, 0], by decide⟩,
    ⟨[[0x81], [0x7E], [0]], 0x81, 0x7E, [0], by decide⟩, ⟨[[], [0x81]], by decide⟩⟩

theorem test_meets_O36 :
    ∃ (p : Handle) (buf : Bytes) (len n : Nat) (st : Status) (s t : State),
      exec (.prsExec p buf len) s = .next t ∧ t.result = .fed n st ∧ n < len :=
  ⟨0, [0x81, 0x05, 0x48], 3, 2, .ok, State.reset, _, rfl, rfl, by decide⟩

theorem test_meets_O37_O38_O41 : ∃ (data : Bytes) (i : Nat), i < data.length ∧ i % 4 = 0 ∧ i ≠ 0 :=
  ⟨[0x48, 0x65, 0x6C, 0x6C, 0x6F], 4, by decide⟩

theorem test_meets_O40 :
    (∃ c1 : Bytes, c1.length % 4 = 0 ∧ c1 ≠ []) ∧ ∃ c1 : Bytes, c1.length % 4 ≠ 0 :=
  ⟨⟨[0, 0, 0, 0], by decide⟩, ⟨[0, 0, 0], by decide⟩⟩

/-- One witness per masked form: short, ext16, ext64. -/
theorem test_meets_O41 :
    State.reset.parser 0 = initialPrs ∧
    (∃ (b1 : Byte) (e : Bytes) (chunks : List Bytes), b1.getLsbD 7 = true ∧
      e.length = extLen (b1.extractLsb' 0 7) ∧ chunks.flatten = 0x81 :: b1 :: (e ++ [1, 2, 3, 4]) ∧ e.length = 0) ∧
    (∃ (b1 : Byte) (e : Bytes) (chunks : List Bytes), b1.getLsbD 7 = true ∧
      e.length = extLen (b1.extractLsb' 0 7) ∧ chunks.flatten = 0x81 :: b1 :: (e ++ [1, 2, 3, 4]) ∧ e.length = 2) ∧
    ∃ (b1 : Byte) (e : Bytes) (chunks : List Bytes), b1.getLsbD 7 = true ∧
      e.length = extLen (b1.extractLsb' 0 7) ∧ chunks.flatten = 0x81 :: b1 :: (e ++ [1, 2, 3, 4]) ∧ e.length = 8 :=
  ⟨rfl, ⟨0xFD, [], [[0x81, 0xFD], [1, 2, 3, 4]], by decide⟩,
    ⟨0xFE, [0, 5], [[0x81, 0xFE, 0, 5, 1], [2, 3, 4]], by decide⟩,
    ⟨0xFF, [0x80, 0, 0, 0, 0, 0, 0, 0], [[0x81, 0xFF, 0x80, 0, 0, 0, 0, 0, 0, 0, 1, 2, 3, 4]], by decide⟩⟩

theorem test_meets_O42 :
    (∃ d : Desc, d.plen.toNat < 126 ∧ d.ext ≠ 0) ∧ (∃ d : Desc, d.plen.toNat = 126 ∧ 65535 < d.ext.toNat) ∧
    ∃ d : Desc, d.plen.toNat = 127 :=
  ⟨⟨{ defaultDesc with plen := 125, ext := 999 }, by decide⟩,
    ⟨{ defaultDesc with plen := 126, ext := 0x12345 }, by decide⟩, ⟨{ defaultDesc with plen := 127 }, by decide⟩⟩

theorem test_meets_O45 :
    ∃ (d : Desc) (chunks : List Bytes), chunks.flatten = wireHeader d ∧ wireExact d = true ∧ d.mask = true :=
  ⟨⟨false, true, false, true, 0xB, true, 0x7D, 0, 0x11223344⟩, [[0x5B], [], [0xFD, 0x11, 0x22], [0x33, 0x44]],
    by decide⟩

theorem test_meets_O46 :
    ∃ (p : Handle) (buf : Bytes) (len n : Nat) (st : Status) (s t : State), s.parser p = initialPrs ∧
      exec (.prsExec p buf len) s = .next t ∧ t.result = .fed n st ∧ (t.parser p).st = .headerComplete :=
  ⟨0, [0x82, 0xFE, 0x00, 0x05, 0xAA, 0xBB, 0xCC, 0xDD], 8, 8, .ok, State.reset, _, rfl, rfl, rfl, rfl⟩

theorem test_meets_O48 : ∃ s t : State, s.inv = true ∧ step s = .next t ∧ s.prs ≠ t.prs :=
  ⟨(withPrs prsExt).load [.prsByte 0 0x05], _, by decide, rfl, by decide⟩

theorem test_meets_O50 :
    ∃ (cmds : List Command) (k : Nat) (t : State), core.run k (State.reset.withPending cmds) = .next t ∧
      (t.parser 0).st ≠ .awaitFirst :=
  ⟨[⟨0x7#4, [.handle 0, .num 0x81]⟩], 1, _, rfl, by decide⟩

theorem test_meets_O51 :
    ∃ (i : Instr) (s t : State) (q : Handle) (a : Handle), exec i s = .next t ∧ i.parserWritten ≠ some q ∧
      i.accNamed ≠ some a :=
  ⟨.prsByte 0 0x81, State.reset, _, 1, 0, rfl, by decide, by decide⟩

theorem test_meets_O52 :
    ∃ (i : Instr) (s s' t : State), (∀ p, i.parserNamed = some p → s.parser p = s'.parser p) ∧
      (∀ a, i.accNamed = some a → s.acc a = s'.acc a) ∧ exec i s = .next t ∧ s ≠ s' :=
  ⟨.prsByte 1 0x81, State.reset, withPrs prsExt, _, by rintro _ ⟨⟩; decide, by rintro _ ⟨⟩, rfl, by decide⟩

theorem test_meets_O53 :
    ∃ (i j : Instr) (s s1 s2 : State), i.apart j ∧ exec i s = .next s1 ∧ exec j s = .next s2 :=
  ⟨.prsByte 0 0x81, .prsMsg 1, State.reset, _, _, ⟨by rintro _ ⟨⟩; decide, by rintro _ ⟨⟩⟩, rfl, rfl⟩

theorem test_meets_O54 :
    prsComplete.st = .headerComplete ∧
    ∃ (i : Instr) (p : Handle) (s t : State), exec i s = .next t ∧ i ≠ .prsReset p ∧
      (s.parser p).st = .headerComplete :=
  ⟨rfl, .prsByte 0 0x81, 0, withPrs prsComplete, _, rfl, by decide, by decide⟩

theorem test_meets_O55 :
    ∃ (i : Instr) (p : Handle) (s t : State), exec i s = .next t ∧ i ≠ .prsReset p ∧
      (s.parser p).st ≠ (t.parser p).st :=
  ⟨.prsByte 0 0x3D, 0, withPrs prsKey, _, rfl, by decide, by decide⟩

theorem test_meets_O56 :
    ∃ (i : Instr) (s t : State), exec i s = .next t ∧ resultStatus t.result = .frameSizeOverflow :=
  ⟨.accAdd 0 0xEF, withAcc accFull, _, rfl, by decide⟩

theorem test_meets_O57 :
    ∃ (i : Instr) (s t : State), i.parserWritten = none ∧ i.accNamed = none ∧ exec i s = .next t :=
  ⟨.prsMsg 0, withPrs prsExt, _, rfl, rfl, rfl⟩

theorem test_meets_O58 :
    (∃ (i : Instr) (p : Handle) (s t : State), exec i s = .next t ∧ (s.parser p).st = .failed ∧ i = .prsReset p) ∧
    (∃ (i : Instr) (p : Handle) (s t : State), exec i s = .next t ∧ (s.parser p).st = .failed ∧ i ≠ .prsReset p) ∧
    full accFull = true ∧ ∃ (a : Handle) (n : BitVec 4) (s t : State), exec (.accReset a n) s = .next t :=
  ⟨⟨.prsReset 0, 0, withPrs prsFailed, _, rfl, by decide, rfl⟩,
    ⟨.prsByte 0 0, 0, withPrs prsFailed, _, rfl, by decide, by decide⟩, by decide,
    ⟨0, 8, withAcc accFull, _, rfl⟩⟩

end Sys2Proof.Tests
end

section
/-! PROOFS. 00_scope.md: what one step runs (R6), and that instances share no state (R7). -/

namespace Sys2Proof.Proofs

open Machine Laws

/-! ### One step -/

theorem step_of_decode_ok {s : State} {c : Command} {rest : List Command} {i : Instr}
    (hp : s.pending = c :: rest) (hd : decode c = .ok i) : step s = exec i (s.withPending rest) := by
  simp only [step, hp, hd]

theorem step_of_decode_error {s : State} {c : Command} {rest : List Command} {e : DecodeError}
    (hp : s.pending = c :: rest) (hd : decode c = .error e) : step s = .refused (refusalOf e) := by
  simp only [step, hp, hd]

theorem step_of_idle {s : State} (hp : s.pending = []) : step s = .next s := by
  simp only [step, hp]

/-- Settles O4: one equation of `step` per branch. -/
theorem stepRunsTheOldestIssuedCommand : Obligations.StepRunsTheOldestIssuedCommand :=
  ⟨fun _ _ _ _ => step_of_decode_ok, fun _ _ _ _ => step_of_decode_error, fun _ => step_of_idle⟩

/-! ### What a command leaves unchanged -/

section

variable {i : Instr} {s t : State} {p : Handle} {a : Handle}

theorem exec_parser_of_not_written (h : exec i s = .next t) (hp : i.parserWritten ≠ some p) :
    t.parser p = s.parser p := by
  obtain ⟨hparser, -, -⟩ := exec_next_units h
  rcases hparser p with same | ⟨rfl, -⟩ | ⟨b, rfl, -⟩ | ⟨buf, len, rfl, -⟩
  · exact same
  · exact absurd rfl hp
  · exact absurd rfl hp
  · exact absurd rfl hp

theorem exec_acc_of_not_named (h : exec i s = .next t) (ha : i.accNamed ≠ some a) :
    t.acc a = s.acc a := by
  obtain ⟨-, hacc, -⟩ := exec_next_units h
  rcases hacc a with same | ⟨n, rfl, -⟩ | ⟨b, A, rfl, -⟩
  · exact same
  · exact absurd rfl ha
  · exact absurd rfl ha

theorem exec_pending (h : exec i s = .next t) : t.pending = s.pending := by
  obtain ⟨-, -, hpending⟩ := exec_next_units h
  exact hpending

end

/-- Settles O51: `exec_next_units` lists the commands that can change an instance, and each of them names it. -/
theorem commandChangesOnlyItsInstance : Obligations.CommandChangesOnlyItsInstance :=
  fun _ _ _ h => ⟨fun _ => exec_parser_of_not_written h, fun _ => exec_acc_of_not_named h, exec_pending h⟩

/-! ### What a command depends on -/

section

variable {i : Instr} {s s' t : State} {p : Handle} {a : Handle}

theorem accNamed_eq_none_of_parserNamed (hp : i.parserNamed = some p) : i.accNamed = none := by
  cases i with
  | accReset | accAdd => cases hp
  | _ => rfl

/-- HDR, MSK and WR hold no state (10_state.md R31): the result of their commands is the same in every state. -/
theorem exec_of_names_no_unit (hp : i.parserNamed = none) (ha : i.accNamed = none) :
    ∃ r, ∀ s, exec i s = .next (s.withResult r) := by
  cases i with
  | hdrDefault | hdrMake | hdrEfflen | mskXor | wrHdr => exact ⟨_, fun _ => rfl⟩
  | accReset | accAdd => cases ha
  | prsReset | prsByte | prsExec | prsParsed | prsMsg => cases hp

/-- The result of a PRS command, and the parser it leaves, are the same in two states that agree on its parser. -/
theorem exec_depends_on_parser (hp : i.parserNamed = some p) (hs : s.parser p = s'.parser p)
    (h : exec i s = .next t) :
    ∃ t', exec i s' = .next t' ∧ t'.result = t.result ∧ t'.parser p = t.parser p := by
  cases i with
  | prsReset q =>
    cases hp
    obtain rfl := execPrsReset_next.mp h
    exact ⟨_, execPrsReset_next.mpr rfl, by simp⟩
  | prsByte q b =>
    cases hp
    obtain rfl := execPrsByte_next.mp h
    exact ⟨_, execPrsByte_next.mpr rfl, by simp [hs]⟩
  | prsExec q buf len =>
    cases hp
    obtain ⟨hlen, rfl⟩ := execPrsExec_next.mp h
    exact ⟨_, execPrsExec_next.mpr ⟨hlen, rfl⟩, by simp [hs]⟩
  | prsParsed q =>
    cases hp
    obtain rfl := execPrsParsed_next.mp h
    exact ⟨_, execPrsParsed_next.mpr rfl, by simp [hs]⟩
  | prsMsg q =>
    cases hp
    obtain rfl := execPrsMsg_next.mp h
    exact ⟨_, execPrsMsg_next.mpr rfl, by simp [hs]⟩
  | _ => cases hp

/-- The result of an ACC command, and the accumulator it leaves, are the same in two states that agree on its
accumulator. -/
theorem exec_depends_on_acc (ha : i.accNamed = some a) (hs : s.acc a = s'.acc a)
    (h : exec i s = .next t) :
    ∃ t', exec i s' = .next t' ∧ t'.result = t.result ∧ t'.acc a = t.acc a := by
  cases i with
  | accReset c n =>
    cases ha
    obtain ⟨hn, rfl⟩ := execAccReset_next.mp h
    exact ⟨_, execAccReset_next.mpr ⟨hn, rfl⟩, by simp⟩
  | accAdd c b =>
    cases ha
    obtain ⟨A, hA, rfl⟩ := execAccAdd_next.mp h
    exact ⟨_, execAccAdd_next.mpr ⟨A, hs ▸ hA, rfl⟩, by simp⟩
  | _ => cases ha

end

/-- Settles O52: a command names a parser, an accumulator or nothing, and depends on that alone. -/
theorem commandDependsOnItsInstanceAlone : Obligations.CommandDependsOnItsInstanceAlone := by
  intro i s s' t hparser hacc h
  cases hp : i.parserNamed with
  | some p =>
    obtain ⟨t', h', hresult, hp'⟩ := exec_depends_on_parser hp (hparser p hp) h
    exact ⟨t', h', hresult, by simpa using hp', by simp [accNamed_eq_none_of_parserNamed hp]⟩
  | none =>
    cases ha : i.accNamed with
    | some a =>
      obtain ⟨t', h', hresult, ha'⟩ := exec_depends_on_acc ha (hacc a ha) h
      exact ⟨t', h', hresult, by simp, by simpa using ha'⟩
    | none =>
      obtain ⟨r, hr⟩ := exec_of_names_no_unit hp ha
      obtain rfl : s.withResult r = t := by simpa [hr] using h
      exact ⟨s'.withResult r, hr s', by simp⟩

end Sys2Proof.Proofs
end

section
/-! PROOFS. 10_state.md: the invariant of accumulators, parsers and their tables (R26, R29), the packed
descriptor image (R23), the default descriptor (R25), the writers of each descriptor field (R33) and reset (R34). -/

namespace Sys2Proof.Proofs

open Machine Laws

/-! ### The parser invariant, state by state (R29) -/

section

variable {P : Prs}

theorem prsInv_awaitFirst_iff (h : P.st = .awaitFirst) :
    prsInv P = true ↔ P.d = defaultDesc ∧ P.acc = accReset 0 := by
  simp only [prsInv, h, Bool.and_eq_true, beq_iff_eq]
  refine and_iff_right_of_imp ?_
  rintro ⟨-, hacc⟩
  exact hacc ▸ accumInv_accReset (by decide)

theorem prsInv_awaitSecond_iff (h : P.st = .awaitSecond) :
    prsInv P = true ↔
      P.d.mask = false ∧ P.d.plen = 0 ∧ P.d.ext = 0 ∧ P.d.key = 0 ∧ P.acc = accReset 0 := by
  simp only [prsInv, h, Bool.and_eq_true, Bool.not_eq_true', beq_iff_eq, and_assoc]
  refine and_iff_right_of_imp ?_
  rintro ⟨-, -, -, -, hacc⟩
  exact hacc ▸ accumInv_accReset (by decide)

theorem prsInv_awaitExt_iff (h : P.st = .awaitExt) :
    prsInv P = true ↔
      accumInv P.acc = true ∧ P.acc.cap = (if P.d.plen.toNat = 126 then 2 else 8) ∧ P.acc.cnt < P.acc.cap ∧
        126 ≤ P.d.plen.toNat ∧ P.d.ext = 0 ∧ P.d.key = 0 := by
  simp only [prsInv, h, Bool.and_eq_true, beq_iff_eq, decide_eq_true_eq, and_assoc]

theorem prsInv_awaitKey_iff (h : P.st = .awaitKey) :
    prsInv P = true ↔
      accumInv P.acc = true ∧ P.acc.cap = 4 ∧ P.acc.cnt < 4 ∧ P.d.mask = true ∧ P.d.key = 0 ∧
        wireExact P.d = true := by
  simp only [prsInv, h, Bool.and_eq_true, beq_iff_eq, decide_eq_true_eq, and_assoc]
  refine and_congr_right fun _ => and_congr_right fun _ => and_congr_right fun _ => and_congr_right fun _ =>
    and_congr_right fun hkey => ?_
  rw [← hkey]

theorem prsInv_headerComplete_iff (h : P.st = .headerComplete) :
    prsInv P = true ↔ accumInv P.acc = true ∧ wireExact P.d = true := by
  simp only [prsInv, h, Bool.and_eq_true]

theorem accumInv_of_prsInv (h : prsInv P = true) : accumInv P.acc = true := by
  simp only [prsInv, Bool.and_eq_true] at h
  exact h.1

/-- FAILED does not satisfy the invariant (42_parser.md R155). -/
theorem st_ne_failed_of_prsInv (h : prsInv P = true) : P.st ≠ .failed := by
  intro hst
  simp [prsInv, hst] at h

end

@[simp] theorem accReset_cap (n : Nat) : (accReset n).cap = n := rfl
@[simp] theorem accReset_cnt (n : Nat) : (accReset n).cnt = 0 := rfl

theorem prsInv_initialPrs : prsInv initialPrs = true :=
  (prsInv_awaitFirst_iff rfl).mpr ⟨rfl, rfl⟩

/-! ### A byte step keeps the parser invariant -/

section

variable {P : Prs}

/-- The value an accumulator of capacity N reads as has N bytes. -/
theorem accBE_lt_of_full {A : Accum} (hA : accumInv A = true) (h : A.cnt = A.cap) :
    accBE A < 256 ^ A.cap := by
  obtain ⟨hcnt, hcap, -⟩ := (accumInv_iff A).mp hA
  have hlt := be_lt (held A)
  rwa [length_held (hcnt.trans hcap), h, ← accBE_of_full h] at hlt

/-- A parser that has just begun to await its extended length. -/
theorem prsInv_awaitExt_accReset {d : Desc} {n : Nat} (hn : n = if d.plen.toNat = 126 then 2 else 8)
    (hplen : 126 ≤ d.plen.toNat) (hext : d.ext = 0) (hkey : d.key = 0) :
    prsInv ⟨.awaitExt, d, accReset n⟩ = true := by
  have hbounds : 0 < n ∧ n ≤ 8 := by rw [hn]; split <;> decide
  obtain ⟨hpos, hle⟩ := hbounds
  rw [prsInv_awaitExt_iff rfl]
  exact ⟨accumInv_accReset hle, hn, hpos, hplen, hext, hkey⟩

/-- The state after the length fields has the invariant: awaiting the key with nothing stored yet, or complete. -/
theorem prsInv_afterLength (hacc : accumInv P.acc = true) (hkey : P.d.key = 0) (hexact : wireExact P.d = true) :
    prsInv (afterLength P) = true := by
  unfold afterLength
  split
  · rename_i hmask
    rw [prsInv_awaitKey_iff rfl]
    exact ⟨accumInv_accReset (by decide), rfl, by simp, hmask, hkey, hexact⟩
  · rw [prsInv_headerComplete_iff rfl]
    exact ⟨hacc, hexact⟩

theorem prsInv_stepFirst (hP : prsInv P = true) (hst : P.st = .awaitFirst) (b : Byte) :
    prsInv (stepFirst P b).prs = true := by
  obtain ⟨hd, hacc⟩ := (prsInv_awaitFirst_iff hst).mp hP
  rw [prsInv_awaitSecond_iff rfl]
  simp [stepFirst, hd, hacc, defaultDesc]

theorem prsInv_stepSecond (hP : prsInv P = true) (hst : P.st = .awaitSecond) (b : Byte) :
    prsInv (stepSecond P b).prs = true := by
  obtain ⟨-, -, hext, hkey, hacc⟩ := (prsInv_awaitSecond_iff hst).mp hP
  simp only [stepSecond]
  split
  · rename_i h126
    exact prsInv_awaitExt_accReset (by simp [h126]) h126.ge hext hkey
  · split
    · rename_i h127
      exact prsInv_awaitExt_accReset (by simp [h127]) (by simp [h127]) hext hkey
    · refine prsInv_afterLength (accumInv_of_prsInv (P := P) hP) hkey ?_
      rw [wireExact_iff]
      exact ⟨fun _ => hext, fun h126 => absurd h126 ‹_›, fun _ => hkey⟩

/-- P.acc is never full in AWAIT_EXT, so the byte is stored; the byte that fills a 16-bit extension leaves EXT below
2^16. -/
theorem prsInv_stepExt (hP : prsInv P = true) (hst : P.st = .awaitExt) (b : Byte) :
    prsInv (stepExt P b).prs = true := by
  obtain ⟨hacc, hcap, hcnt, hplen, hext, hkey⟩ := (prsInv_awaitExt_iff hst).mp hP
  have hstored : accumInv (stored P.acc b) = true := accumInv_store hacc hcnt.ne b
  rw [stepExt_of_not_full hcnt.ne]
  split
  · rename_i hfull
    refine prsInv_afterLength hstored hkey ?_
    rw [wireExact_iff]
    refine ⟨fun hlt => absurd hplen (by simpa using hlt), fun h126 => ?_, fun _ => hkey⟩
    have hlt := accBE_lt_of_full hstored hfull
    rw [stored_cap, hcap, if_pos h126] at hlt
    simp only [BitVec.toNat_ofNat]
    omega
  · exact (prsInv_awaitExt_iff (P := { P with acc := stored P.acc b }) hst).mpr
      ⟨hstored, hcap, by simp only [stored_cnt, stored_cap]; omega, hplen, hext, hkey⟩

theorem prsInv_stepKey (hP : prsInv P = true) (hst : P.st = .awaitKey) (b : Byte) :
    prsInv (stepKey P b).prs = true := by
  obtain ⟨hacc, hcap, hcnt, hmask, hkey, hexact⟩ := (prsInv_awaitKey_iff hst).mp hP
  have hne : P.acc.cnt ≠ P.acc.cap := by omega
  have hstored : accumInv (stored P.acc b) = true := accumInv_store hacc hne b
  rw [stepKey_of_not_full hne]
  split
  · rw [prsInv_headerComplete_iff rfl]
    refine ⟨hstored, ?_⟩
    rw [wireExact_iff] at hexact ⊢
    obtain ⟨hshort, h16, -⟩ := hexact
    exact ⟨hshort, h16, fun hfalse => by simp [hmask] at hfalse⟩
  · exact (prsInv_awaitKey_iff (P := { P with acc := stored P.acc b }) hst).mpr
      ⟨hstored, hcap, by simp only [stored_cnt]; omega, hmask, hkey, hexact⟩

theorem prsInv_prsStep (hP : prsInv P = true) (b : Byte) : prsInv (prsStep P b).prs = true := by
  rcases prsStep_cases P b with ⟨hst, e⟩ | ⟨hst, e⟩ | ⟨hst, e⟩ | ⟨hst, e⟩ | ⟨-, e⟩ | ⟨-, e⟩
  · exact e ▸ prsInv_stepFirst hP hst b
  · exact e ▸ prsInv_stepSecond hP hst b
  · exact e ▸ prsInv_stepExt hP hst b
  · exact e ▸ prsInv_stepKey hP hst b
  · rwa [e]
  · rwa [e]

/-- Feeding bytes keeps the invariant: each byte is one byte step. -/
theorem prsInv_feedList (hP : prsInv P = true) (bs : Bytes) : prsInv (feedList P bs).prs = true := by
  induction bs generalizing P with
  | nil => exact hP
  | cons b bs ih =>
    have hstep := prsInv_prsStep hP b
    simp only [feedList]
    split
    · exact hP
    · split
      · exact hstep
      · exact ih hstep

theorem prsInv_feedBuffer (hP : prsInv P = true) {buf : Bytes} {len : Nat} (hlen : len ≤ buf.length) :
    prsInv (feedBuffer P buf len).prs = true := by
  rw [feedBuffer_eq_feedList P buf len hlen, if_neg (st_ne_failed_of_prsInv hP)]
  exact prsInv_feedList hP _

end

/-! ### The state invariant: what it gives of one unit, and which updates keep it -/

section

variable {s t : State}

theorem inv_iff :
    s.inv = true ↔ prsTableWf s.prs = true ∧ (∀ e ∈ s.prs, prsInv e.2 = true) ∧
      namesRise s.accs = true ∧ ∀ e ∈ s.accs, accumInv e.2 = true := by
  simp only [State.inv, Bool.and_eq_true, List.all_eq_true, and_assoc]

/-- Every name reads as a parser with the invariant; an unlisted one as `initialPrs` (log 4). -/
theorem prsInv_parser (h : s.inv = true) (p : Handle) : prsInv (s.parser p) = true := by
  obtain ⟨-, hprs, -⟩ := inv_iff.mp h
  unfold State.parser
  cases hp : lookupName p s.prs with
  | none => exact prsInv_initialPrs
  | some P => exact hprs _ (mem_of_lookup hp)

theorem accumInv_acc (h : s.inv = true) {a : Handle} {A : Accum} (ha : s.acc a = some A) :
    accumInv A = true := by
  obtain ⟨-, -, -, haccs⟩ := inv_iff.mp h
  exact haccs _ (mem_of_lookup ha)

theorem inv_setParser (h : s.inv = true) (p : Handle) {P : Prs} (hP : prsInv P = true) :
    (s.setParser p P).inv = true := by
  obtain ⟨hwf, hprs, hnames, haccs⟩ := inv_iff.mp h
  refine inv_iff.mpr ⟨prsTableWf_setParser s p P hwf, fun e he => ?_, hnames, haccs⟩
  simp only [State.setParser] at he
  split at he
  · exact hprs e (List.mem_filter.mp he).1
  · rcases mem_insert he with rfl | he
    · exact hP
    · exact hprs e he

theorem inv_setAcc (h : s.inv = true) (a : Handle) {A : Accum} (hA : accumInv A = true) :
    (s.setAcc a A).inv = true := by
  obtain ⟨hwf, hprs, hnames, haccs⟩ := inv_iff.mp h
  refine inv_iff.mpr ⟨hwf, hprs, namesRise_insert a A hnames, fun e he => ?_⟩
  rcases mem_insert he with rfl | he
  · exact hA
  · exact haccs e he

@[simp] theorem inv_withResult (r : Result) : (s.withResult r).inv = s.inv := rfl
@[simp] theorem inv_withPending (l : List Command) : (s.withPending l).inv = s.inv := rfl

/-! ### A command, and a step, keeps the state invariant -/

theorem exec_keeps_inv {i : Instr} (hs : s.inv = true) (h : exec i s = .next t) : t.inv = true := by
  cases i with
  | accReset a n =>
    obtain ⟨hn, rfl⟩ := execAccReset_next.mp h
    exact inv_setAcc hs a (accumInv_accReset hn)
  | accAdd a b =>
    obtain ⟨A, hA, rfl⟩ := execAccAdd_next.mp h
    exact inv_setAcc hs a (accumInv_accAdd (accumInv_acc hs hA) b)
  | prsReset p =>
    obtain rfl := execPrsReset_next.mp h
    exact inv_setParser hs p prsInv_initialPrs
  | prsByte p b =>
    obtain rfl := execPrsByte_next.mp h
    exact inv_setParser hs p (prsInv_prsStep (prsInv_parser hs p) b)
  | prsExec p buf len =>
    obtain ⟨hlen, rfl⟩ := execPrsExec_next.mp h
    exact inv_setParser hs p (prsInv_feedBuffer (prsInv_parser hs p) hlen)
  | hdrDefault | hdrMake | hdrEfflen | prsParsed | prsMsg | mskXor | wrHdr =>
    obtain rfl := returning_next_iff _ _ _ |>.mp h
    exact hs

end

/-- Settles O48: an idle step changes nothing, and a step that runs a command keeps the invariant as the command
does. -/
theorem stepKeepsTheInvariant : Obligations.StepKeepsTheInvariant := by
  intro s t hs h
  rcases step_next h with ⟨-, rfl⟩ | ⟨c, rest, i, -, -, hexec⟩
  · exact hs
  · exact exec_keeps_inv (s := s.withPending rest) (by simpa using hs) hexec

/-! ### The reset state (R34) -/

/-- Settles O49: reset lists no unit, so the invariant asks nothing and every name reads as unlisted. -/
theorem resetStateHasTheInvariant : Obligations.ResetStateHasTheInvariant :=
  ⟨inv_iff.mpr ⟨prsTableWf_reset, nofun, rfl, nofun⟩, fun _ => ⟨rfl, rfl⟩⟩

/-! ### The default descriptor (R25) -/

/-- Settles O9: the parser PRS.RESET leaves is `initialPrs`, whose descriptor is the default one. -/
theorem defaultDescriptorHasOnlyFinSet : Obligations.DefaultDescriptorHasOnlyFinSet := by
  refine ⟨rfl, by decide, fun p s t h => ?_⟩
  obtain rfl := execPrsReset_next.mp h
  rw [parser_withResult, parser_setParser_same]
  rfl

/-! ### The packed descriptor image (R23) -/

section

variable (d : Desc)

@[simp] theorem byte0_getElem_seven : (byte0 d)[7] = d.fin := by grind [byte0]
@[simp] theorem byte0_getElem_six : (byte0 d)[6] = d.rsv1 := by grind [byte0]
@[simp] theorem byte0_getElem_five : (byte0 d)[5] = d.rsv2 := by grind [byte0]
@[simp] theorem byte0_getElem_four : (byte0 d)[4] = d.rsv3 := by grind [byte0]
@[simp] theorem byte0_low_bits : (byte0 d).extractLsb' 0 4 = d.opcode := BitVec.extractLsb'_append_eq_right
@[simp] theorem byte1_getElem_seven : (byte1 d)[7] = d.mask := by grind [byte1]
@[simp] theorem byte1_low_bits : (byte1 d).extractLsb' 0 7 = d.plen := BitVec.extractLsb'_append_eq_right

/-- The two wire bytes hold every field but EXT and KEY. -/
theorem desc_of_bytes :
    ({ fin := (byte0 d)[7], rsv1 := (byte0 d)[6], rsv2 := (byte0 d)[5], rsv3 := (byte0 d)[4],
       opcode := (byte0 d).extractLsb' 0 4, mask := (byte1 d)[7], plen := (byte1 d).extractLsb' 0 7,
       ext := d.ext, key := d.key } : Desc) = d := by
  simp

theorem desc_eq_of_bytes_eq {d e : Desc} (h0 : byte0 d = byte0 e) (h1 : byte1 d = byte1 e)
    (hext : d.ext = e.ext) (hkey : d.key = e.key) : d = e := by
  rw [← desc_of_bytes d, h0, h1, hext, hkey, desc_of_bytes e]

/-- The nine fields of `packDesc`, grouped into KEY, EXT and the two wire bytes. -/
theorem packDesc_eq_bytes : packDesc d = d.key ++ d.ext ++ byte1 d ++ byte0 d := by
  simp only [packDesc, byte0, byte1, BitVec.append_assoc, BitVec.cast_eq]

theorem packDesc_bits_byte0 : (packDesc d).extractLsb' 0 8 = byte0 d := by
  rw [packDesc_eq_bytes]
  exact BitVec.extractLsb'_append_eq_right

theorem packDesc_bits_byte1 : (packDesc d).extractLsb' 8 8 = byte1 d := by
  rw [packDesc_eq_bytes, BitVec.extractLsb'_append_eq_of_le (by decide)]
  exact BitVec.extractLsb'_append_eq_right

theorem packDesc_bits_ext : (packDesc d).extractLsb' 16 64 = d.ext := by
  rw [packDesc_eq_bytes, BitVec.extractLsb'_append_eq_of_le (by decide),
    BitVec.extractLsb'_append_eq_of_le (by decide)]
  exact BitVec.extractLsb'_append_eq_right

theorem packDesc_bits_key : (packDesc d).extractLsb' 80 32 = d.key := by
  rw [packDesc_eq_bytes, BitVec.extractLsb'_append_eq_of_le (by decide),
    BitVec.extractLsb'_append_eq_of_le (by decide)]
  exact BitVec.extractLsb'_append_eq_left

end

theorem ofBool_getLsbD {n : Nat} (x : BitVec n) (i : Nat) : BitVec.ofBool (x.getLsbD i) = x.extractLsb' i 1 := by
  ext j hj
  obtain rfl : j = 0 := by omega
  simp

section

variable (w : BitVec 112)

theorem byte0_unpackDesc : byte0 (unpackDesc w) = w.extractLsb' 0 8 := by
  simp only [byte0, unpackDesc, ofBool_getLsbD, BitVec.extractLsb'_append_extractLsb'_eq_extractLsb']

theorem byte1_unpackDesc : byte1 (unpackDesc w) = w.extractLsb' 8 8 := by
  simp only [byte1, unpackDesc, ofBool_getLsbD, BitVec.extractLsb'_append_extractLsb'_eq_extractLsb']

theorem packDesc_unpackDesc : packDesc (unpackDesc w) = w := by
  rw [packDesc_eq_bytes, byte0_unpackDesc, byte1_unpackDesc]
  simp only [unpackDesc, BitVec.extractLsb'_append_extractLsb'_eq_extractLsb']
  exact BitVec.extractLsb'_eq_self

end

theorem unpackDesc_packDesc (d : Desc) : unpackDesc (packDesc d) = d :=
  desc_eq_of_bytes_eq ((byte0_unpackDesc _).trans (packDesc_bits_byte0 d))
    ((byte1_unpackDesc _).trans (packDesc_bits_byte1 d)) (packDesc_bits_ext d) (packDesc_bits_key d)

/-- Settles O10: where the image holds each part, and that packing and unpacking undo each other. -/
theorem packedImageHoldsTheWireBytes : Obligations.PackedImageHoldsTheWireBytes :=
  ⟨fun d => ⟨packDesc_bits_byte0 d, packDesc_bits_byte1 d, packDesc_bits_ext d, packDesc_bits_key d,
    unpackDesc_packDesc d⟩, packDesc_unpackDesc⟩

/-! ### The writers of each descriptor field (R33) -/

section

variable (P : Prs) (b : Byte)

theorem stepSecond_d :
    (stepSecond P b).prs.d = { P.d with mask := b.getLsbD 7, plen := b.extractLsb' 0 7 } := by
  simp only [stepSecond]
  split
  · rfl
  · split
    · rfl
    · exact afterLength_d _

theorem stepExt_d : ∃ ext, (stepExt P b).prs.d = { P.d with ext := ext } := by
  by_cases hfull : P.acc.cnt = P.acc.cap
  · exact ⟨P.d.ext, by rw [stepExt_of_full hfull]; rfl⟩
  · rw [stepExt_of_not_full hfull]
    split
    · exact ⟨_, afterLength_d _⟩
    · exact ⟨P.d.ext, rfl⟩

theorem stepKey_d : ∃ key, (stepKey P b).prs.d = { P.d with key := key } := by
  by_cases hfull : P.acc.cnt = P.acc.cap
  · exact ⟨P.d.key, by rw [stepKey_of_full hfull]; rfl⟩
  · rw [stepKey_of_not_full hfull]
    split
    · exact ⟨_, rfl⟩
    · exact ⟨P.d.key, rfl⟩

end

/-- Settles O25: by the state of the parser, which alone chooses the byte step. -/
theorem descriptorFieldsHaveOneWritingState : Obligations.DescriptorFieldsHaveOneWritingState := by
  intro P b
  rcases prsStep_cases P b with ⟨hst, e⟩ | ⟨hst, e⟩ | ⟨hst, e⟩ | ⟨hst, e⟩ | ⟨-, e⟩ | ⟨-, e⟩
  · simp [e, hst, stepFirst]
  · simp [e, hst, stepSecond_d]
  · obtain ⟨ext, hd⟩ := stepExt_d P b
    simp [e, hst, hd]
  · obtain ⟨key, hd⟩ := stepKey_d P b
    simp [e, hst, hd]
  · simp [e]
  · simp [e]

end Sys2Proof.Proofs
end

section
/-! PROOFS. 20_memory.md: the bytes a buffer command reads (R50, R51), the commands that only read (R58), and the
commands that commute (R61). -/

namespace Sys2Proof.Proofs

open Machine Laws

/-! ### The bytes PRS.EXEC reads (R50, R51) -/

section

variable {P : Prs} {b : Byte} {bs : Bytes}

/-- Whether a byte step overflows is a matter of the parser alone: the byte's value has no say. -/
theorem prsStep_overflow_iff :
    (prsStep P b).status = .frameSizeOverflow ↔
      P.st = .failed ∨ (P.st = .awaitExt ∨ P.st = .awaitKey) ∧ P.acc.cnt = P.acc.cap := by
  rcases prsStep_cases P b with ⟨hst, e⟩ | ⟨hst, e⟩ | ⟨hst, e⟩ | ⟨hst, e⟩ | ⟨hst, e⟩ | ⟨hst, e⟩
  · simp [e, hst, stepFirst]
  · simp only [e, hst, stepSecond]
    split
    · simp
    · split <;> simp
  · by_cases hfull : P.acc.cnt = P.acc.cap
    · simp [e, hst, hfull, stepExt_of_full, enterFailed]
    · rw [e, stepExt_of_not_full hfull]
      split <;> simp [hst, hfull]
  · by_cases hfull : P.acc.cnt = P.acc.cap
    · simp [e, hst, hfull, stepKey_of_full, enterFailed]
    · rw [e, stepKey_of_not_full hfull]
      split <;> simp [hst, hfull]
  · simp [e, hst]
  · simp [e, hst]

theorem prsStep_of_overflow (h : (prsStep P b).status = .frameSizeOverflow) :
    prsStep P b = ⟨{ P with st := .failed }, 0, .frameSizeOverflow⟩ := by
  rcases prsStep_outcome P b with ⟨-, -, hok, -⟩ | ⟨-, e⟩ | ⟨-, e⟩
  · simp [hok] at h
  · simp [e] at h
  · exact e

/-- The value of an offending byte does not matter. -/
theorem prsStep_eq_of_overflow (h : (prsStep P b).status = .frameSizeOverflow) (b' : Byte) :
    prsStep P b' = prsStep P b := by
  have h' : (prsStep P b').status = .frameSizeOverflow := prsStep_overflow_iff.mpr (prsStep_overflow_iff.mp h)
  rw [prsStep_of_overflow h, prsStep_of_overflow h']

theorem feedList_of_headerComplete (h : P.st = .headerComplete) : feedList P bs = ⟨P, 0, .ok⟩ := by
  cases bs with
  | nil => rfl
  | cons => simp [feedList, h]

theorem feedList_cons_of_overflow (hst : P.st ≠ .headerComplete)
    (h : (prsStep P b).status = .frameSizeOverflow) :
    feedList P (b :: bs) = ⟨(prsStep P b).prs, 0, .frameSizeOverflow⟩ := by
  simp [feedList, hst, h]

theorem feedList_cons_of_ok (hst : P.st ≠ .headerComplete) (h : (prsStep P b).status = .ok) :
    feedList P (b :: bs) =
      ⟨(feedList (prsStep P b).prs bs).prs, (feedList (prsStep P b).prs bs).consumed + 1,
        (feedList (prsStep P b).prs bs).status⟩ := by
  simp [feedList, hst, h]

/-- Feeding as many bytes, of which the ones that were consumed are the same, does the same. -/
theorem feedList_eq_of_take_consumed {bs' : Bytes} (hlen : bs'.length = bs.length)
    (htake : bs'.take (feedList P bs).consumed = bs.take (feedList P bs).consumed) :
    feedList P bs' = feedList P bs := by
  induction bs generalizing P bs' with
  | nil => rw [List.length_eq_zero_iff.mp hlen]
  | cons b bs ih =>
    obtain ⟨b', bs', rfl⟩ := List.exists_cons_of_length_eq_add_one hlen
    by_cases hst : P.st = .headerComplete
    · rw [feedList_of_headerComplete hst, feedList_of_headerComplete hst]
    cases hstatus : (prsStep P b).status with
    | frameSizeOverflow =>
      have hsame : prsStep P b' = prsStep P b := prsStep_eq_of_overflow hstatus b'
      rw [feedList_cons_of_overflow hst hstatus, feedList_cons_of_overflow hst (hsame ▸ hstatus), hsame]
    | ok =>
      rw [feedList_cons_of_ok hst hstatus, List.take_succ_cons, List.take_succ_cons, List.cons.injEq] at htake
      obtain ⟨rfl, htail⟩ := htake
      rw [feedList_cons_of_ok hst hstatus, feedList_cons_of_ok hst hstatus, ih (by simpa using hlen) htail]

theorem feedBuffer_eq_of_take_consumed {buf buf' : Bytes} {len : Nat} (hlen : len ≤ buf.length)
    (hlen' : len ≤ buf'.length)
    (htake : buf'.take (feedBuffer P buf len).consumed = buf.take (feedBuffer P buf len).consumed) :
    feedBuffer P buf' len = feedBuffer P buf len := by
  rw [feedBuffer_eq_feedList P buf len hlen] at htake ⊢
  rw [feedBuffer_eq_feedList P buf' len hlen']
  by_cases hst : P.st = .failed
  · rw [if_pos hst, if_pos hst]
  · rw [if_neg hst] at htake
    rw [if_neg hst, if_neg hst]
    refine feedList_eq_of_take_consumed (by simp [hlen, hlen']) ?_
    rw [List.take_take, List.take_take, Nat.min_comm, ← List.take_take, htake, List.take_take]

end

/-- Settles O30: PRS.EXEC reaches its buffer through `feedBuffer` alone. -/
theorem prsExecReadsOnlyWhatItConsumes : Obligations.PrsExecReadsOnlyWhatItConsumes := by
  intro p buf buf' len s t n st hlen hlen' h hresult htake
  obtain ⟨-, rfl⟩ := execPrsExec_next.mp h
  rw [withResult_result, Result.fed.injEq] at hresult
  obtain ⟨rfl, -⟩ := hresult
  exact execPrsExec_next.mpr ⟨hlen', by rw [feedBuffer_eq_of_take_consumed hlen hlen' htake]⟩

/-! ### Commands on different instances (R61) -/

section

variable {i j : Instr} {s s1 s2 t : State} {p : Handle}

theorem apart_symm (h : i.apart j) : j.apart i := by
  obtain ⟨hparser, hacc⟩ := h
  exact ⟨fun p hj hi => hparser p hi hj, fun a hj hi => hacc a hi hj⟩

theorem parserNamed_of_parserWritten (h : i.parserWritten = some p) : i.parserNamed = some p := by
  cases i with
  | prsReset | prsByte | prsExec => exact h
  | _ => cases h

theorem exec_parser_of_not_named (h : exec i s = .next t) (hp : i.parserNamed ≠ some p) :
    t.parser p = s.parser p :=
  exec_parser_of_not_written h fun hw => hp (parserNamed_of_parserWritten hw)

/-- After a command apart from it, a command returns what it would have returned before, and leaves every unit that
the other command does not name as it would have left it. -/
theorem exec_after_apart (hij : i.apart j) (hi : exec i s = .next s1) (hj : exec j s = .next s2) :
    ∃ t, exec j s1 = .next t ∧ t.result = s2.result ∧
      (∀ p, i.parserNamed ≠ some p → t.parser p = s2.parser p) ∧
      ∀ a, i.accNamed ≠ some a → t.acc a = s2.acc a := by
  obtain ⟨hparser, hacc⟩ := apart_symm hij
  obtain ⟨t, ht, hresult, htp, hta⟩ := commandDependsOnItsInstanceAlone j s s1 s2
    (fun p hp => (exec_parser_of_not_named hi (hparser p hp)).symm)
    (fun a ha => (exec_acc_of_not_named hi (hacc a ha)).symm) hj
  refine ⟨t, ht, hresult, fun p hp => ?_, fun a ha => ?_⟩
  · by_cases hjp : j.parserNamed = some p
    · exact htp p hjp
    · rw [exec_parser_of_not_named ht hjp, exec_parser_of_not_named hi hp, exec_parser_of_not_named hj hjp]
  · by_cases hja : j.accNamed = some a
    · exact hta a hja
    · rw [exec_acc_of_not_named ht hja, exec_acc_of_not_named hi ha, exec_acc_of_not_named hj hja]

end

/-- Settles O53: in either order, a unit that the first command names is as that command alone leaves it, and any
other is as the second alone leaves it. -/
theorem commandsOnDifferentInstancesCommute : Obligations.CommandsOnDifferentInstancesCommute := by
  intro i j s s1 s2 hij hi hj
  obtain ⟨t, ht, htresult, htp, hta⟩ := exec_after_apart hij hi hj
  obtain ⟨u, hu, huresult, hup, hua⟩ := exec_after_apart (apart_symm hij) hj hi
  obtain ⟨hparser, hacc⟩ := hij
  refine ⟨t, u, ht, hu, htresult, huresult, fun p => ?_, fun a => ?_, ?_⟩
  · by_cases hip : i.parserNamed = some p
    · rw [exec_parser_of_not_named ht (hparser p hip), hup p (hparser p hip)]
    · rw [htp p hip, exec_parser_of_not_named hu hip]
  · by_cases hia : i.accNamed = some a
    · rw [exec_acc_of_not_named ht (hacc a hia), hua a (hacc a hia)]
    · rw [hta a hia, exec_acc_of_not_named hu hia]
  · rw [exec_pending ht, exec_pending hi, exec_pending hu, exec_pending hj]

/-! ### Commands that only read (R58) -/

/-- A command that writes no unit returns a result that does not depend on the result before it. -/
theorem exec_of_writes_no_unit {i : Instr} (s : State) (hp : i.parserWritten = none) (ha : i.accNamed = none) :
    ∃ r, ∀ r', exec i (s.withResult r') = .next (s.withResult r) := by
  cases i with
  | hdrDefault | hdrMake | hdrEfflen | mskXor | wrHdr => exact ⟨_, fun _ => rfl⟩
  | prsParsed p => exact ⟨.flag (headerParsed (s.parser p)), fun _ => rfl⟩
  | prsMsg p => exact ⟨.desc (s.parser p).d, fun _ => rfl⟩
  | accReset | accAdd => cases ha
  | prsReset | prsByte | prsExec => cases hp

/-- Settles O57: such a command changes nothing but the result, on which it does not depend. -/
theorem readingCommandsRepeat : Obligations.ReadingCommandsRepeat := by
  intro i s t hp ha h
  obtain ⟨r, hr⟩ := exec_of_writes_no_unit s hp ha
  obtain rfl : t = s.withResult r := Host.Outcome.next.inj (h.symm.trans (hr s.result))
  exact ⟨⟨rfl, rfl, rfl⟩, hr r⟩

end Sys2Proof.Proofs
end

section
/-! PROOFS. 30_encoding.md: command images and their decoder (R85 to R87), programs (R88), header bytes 0 and 1
(R71, R72, R75), and the wire header of a parsed descriptor (R81 to R83). -/

namespace Sys2Proof.Proofs

open Machine Laws

/-! ### Typed operands (R86) -/

/-- What a reader of operands answers: a value with the property `good`, or the refusal OperandOutOfType. -/
def Reads {α : Type} (good : α → Prop) : Except DecodeError α → Prop
  | .ok x => good x
  | .error e => e = .operandOutOfType

section

variable {α β : Type} {good : α → Prop} {r : Except DecodeError α}

theorem Reads.of_ok {x : α} (h : Reads good r) (hr : r = .ok x) : good x := by
  subst hr
  exact h

theorem Reads.of_error {e : DecodeError} (h : Reads good r) (hr : r = .error e) : e = .operandOutOfType := by
  subst hr
  exact h

theorem Reads.ok_or_error (h : Reads good r) : (∃ x, r = .ok x) ∨ r = .error .operandOutOfType := by
  cases r with
  | ok x => exact .inl ⟨x, rfl⟩
  | error e => exact .inr (congrArg _ h)

theorem Reads.map {good' : β → Prop} {f : α → β} (h : Reads good r) (hf : ∀ x, good x → good' (f x)) :
    Reads good' (r.map f) := by
  cases r with
  | ok x => exact hf x h
  | error e => exact h

theorem map_eq_error_iff {f : α → β} {e : DecodeError} : r.map f = .error e ↔ r = .error e := by
  cases r <;> simp [Except.map]

end

section

variable (w n : Nat) (ns : List Nat)

theorem asBits_reads : Reads (fun x : BitVec w => x.toNat = n) (asBits w n) := by
  unfold asBits
  split
  · rename_i h
    exact (BitVec.toNat_ofNat n w).trans (Nat.mod_eq_of_lt h)
  · rfl

theorem asBool_reads : Reads (fun f : Bool => f.toNat = n) (asBool n) := by
  unfold asBool
  split <;> rfl

theorem asBytes_reads : Reads (fun bs => bytesToNats bs = ns) (asBytes ns) := by
  induction ns with
  | nil => rfl
  | cons n ns ih =>
    unfold asBytes
    split
    · rename_i b bs hb hbs
      exact congrArg₂ List.cons ((asBits_reads 8 n).of_ok hb) (ih.of_ok hbs)
    · rfl

theorem asDesc_reads : Reads (fun d => (packDesc d).toNat = n) (asDesc n) :=
  (asBits_reads 112 n).map fun x hx => by rw [packDesc_unpackDesc, hx]

end

@[simp] theorem asBits_toNat {w : Nat} (x : BitVec w) : asBits w x.toNat = .ok x := by
  simp [asBits, x.isLt]

@[simp] theorem asBool_toNat (f : Bool) : asBool f.toNat = .ok f := by
  cases f <;> rfl

@[simp] theorem asBytes_bytesToNats (bs : Bytes) : asBytes (bytesToNats bs) = .ok bs := by
  induction bs with
  | nil => rfl
  | cons b bs ih =>
    have hcons : bytesToNats (b :: bs) = b.toNat :: bytesToNats bs := rfl
    simp only [hcons, asBytes, asBits_toNat, ih]

@[simp] theorem asDesc_packDesc (d : Desc) : asDesc (packDesc d).toNat = .ok d := by
  simp [asDesc, Except.map, unpackDesc_packDesc]

/-! ### One decoder per command code (R85, R86) -/

/-- What a decoder of the operands of `code` answers: a command whose image they are, or the refusal
OperandOutOfType. -/
def ReadsImage (code : BitVec 4) (ops : List Operand) : Except DecodeError Instr → Prop :=
  Reads fun i => encode i = ⟨code, ops⟩

section

variable (ops : List Operand)

theorem decodeAccReset_readsImage : ReadsImage 0x1 ops (decodeAccReset ops) := by
  unfold decodeAccReset
  split
  · exact (asBits_reads ..).map fun x hx => by simp [encode, hx]
  · rfl

theorem decodeAccAdd_readsImage : ReadsImage 0x2 ops (decodeAccAdd ops) := by
  unfold decodeAccAdd
  split
  · exact (asBits_reads ..).map fun x hx => by simp [encode, hx]
  · rfl

theorem decodeHdrDefault_readsImage : ReadsImage 0x3 ops (decodeHdrDefault ops) := by
  unfold decodeHdrDefault
  split <;> rfl

theorem decodeHdrMake_readsImage : ReadsImage 0x4 ops (decodeHdrMake ops) := by
  unfold decodeHdrMake
  split
  · split
    · rename_i hfin hop hlen
      simp [ReadsImage, Reads, encode, (asBool_reads _).of_ok hfin, (asBits_reads ..).of_ok hop,
        (asBits_reads ..).of_ok hlen]
    · rfl
  · rfl

theorem decodeHdrEfflen_readsImage : ReadsImage 0x5 ops (decodeHdrEfflen ops) := by
  unfold decodeHdrEfflen
  split
  · exact (asDesc_reads _).map fun d hd => by simp [encode, hd]
  · rfl

theorem decodePrsReset_readsImage : ReadsImage 0x6 ops (decodePrsReset ops) := by
  unfold decodePrsReset
  split <;> rfl

theorem decodePrsByte_readsImage : ReadsImage 0x7 ops (decodePrsByte ops) := by
  unfold decodePrsByte
  split
  · exact (asBits_reads ..).map fun x hx => by simp [encode, hx]
  · rfl

theorem decodePrsExec_readsImage : ReadsImage 0x8 ops (decodePrsExec ops) := by
  unfold decodePrsExec
  split
  · exact (asBytes_reads _).map fun bs hbs => by simp [encode, hbs]
  · rfl

theorem decodePrsParsed_readsImage : ReadsImage 0x9 ops (decodePrsParsed ops) := by
  unfold decodePrsParsed
  split <;> rfl

theorem decodePrsMsg_readsImage : ReadsImage 0xA ops (decodePrsMsg ops) := by
  unfold decodePrsMsg
  split <;> rfl

theorem decodeMskXor_readsImage : ReadsImage 0xB ops (decodeMskXor ops) := by
  unfold decodeMskXor
  split
  · split
    · rename_i hkey hdata
      simp [ReadsImage, Reads, encode, (asBits_reads ..).of_ok hkey, (asBytes_reads _).of_ok hdata]
    · rfl
  · rfl

theorem decodeWrHdr_readsImage : ReadsImage 0xC ops (decodeWrHdr ops) := by
  unfold decodeWrHdr
  split
  · exact (asDesc_reads _).map fun d hd => by simp [encode, hd]
  · rfl

end

/-! ### Decoding and encoding (R85 to R87) -/

/-- The codes that spell no command: 0x0 and 0xD to 0xF (R87). -/
def unassigned (code : BitVec 4) : Prop := code.toNat = 0 ∨ 13 ≤ code.toNat

theorem eq_of_unassigned {code : BitVec 4} (h : unassigned code) :
    code = 0x0 ∨ code = 0xD ∨ code = 0xE ∨ code = 0xF := by
  unfold unassigned at h
  decide +revert

theorem eq_of_not_unassigned {code : BitVec 4} (h : ¬ unassigned code) :
    code = 0x1 ∨ code = 0x2 ∨ code = 0x3 ∨ code = 0x4 ∨ code = 0x5 ∨ code = 0x6 ∨ code = 0x7 ∨ code = 0x8 ∨
      code = 0x9 ∨ code = 0xA ∨ code = 0xB ∨ code = 0xC := by
  unfold unassigned at h
  decide +revert

theorem decode_of_unassigned {code : BitVec 4} (h : unassigned code) (ops : List Operand) :
    decode ⟨code, ops⟩ = .error .unassignedCommand := by
  rcases eq_of_unassigned h with rfl | rfl | rfl | rfl <;> rfl

theorem decode_readsImage {code : BitVec 4} (h : ¬ unassigned code) (ops : List Operand) :
    ReadsImage code ops (decode ⟨code, ops⟩) := by
  rcases eq_of_not_unassigned h with rfl | rfl | rfl | rfl | rfl | rfl | rfl | rfl | rfl | rfl | rfl | rfl
  · exact decodeAccReset_readsImage ops
  · exact decodeAccAdd_readsImage ops
  · exact decodeHdrDefault_readsImage ops
  · exact decodeHdrMake_readsImage ops
  · exact decodeHdrEfflen_readsImage ops
  · exact decodePrsReset_readsImage ops
  · exact decodePrsByte_readsImage ops
  · exact decodePrsExec_readsImage ops
  · exact decodePrsParsed_readsImage ops
  · exact decodePrsMsg_readsImage ops
  · exact decodeMskXor_readsImage ops
  · exact decodeWrHdr_readsImage ops

/-- Settles O1: the decoder of each command types the operands that its encoder wrote out. -/
theorem decodeOfEncodeIsTheCommand : Obligations.DecodeOfEncodeIsTheCommand := by
  intro i
  cases i with
  | hdrDefault | prsReset | prsParsed | prsMsg => rfl
  | accReset a n => simp [encode, decode, decodeAccReset, Except.map]
  | accAdd a b => simp [encode, decode, decodeAccAdd, Except.map]
  | hdrMake fin op len => simp [encode, decode, decodeHdrMake]
  | hdrEfflen d => simp [encode, decode, decodeHdrEfflen, Except.map]
  | prsByte p b => simp [encode, decode, decodePrsByte, Except.map]
  | prsExec p buf len => simp [encode, decode, decodePrsExec, Except.map]
  | mskXor key data => simp [encode, decode, decodeMskXor]
  | wrHdr d => simp [encode, decode, decodeWrHdr, Except.map]

/-- Settles O2: a code that decodes is assigned, and its decoder answers only with a command whose image it was
given. -/
theorem encodeOfDecodeIsTheImage : Obligations.EncodeOfDecodeIsTheImage := by
  rintro ⟨code, ops⟩ i h
  by_cases hcode : unassigned code
  · simp [decode_of_unassigned hcode] at h
  · exact (decode_readsImage hcode ops).of_ok h

/-- Settles O3: each image is the one the encoder writes for its command. -/
theorem commandCodesSpellTheirCommands : Obligations.CommandCodesSpellTheirCommands :=
  ⟨decodeOfEncodeIsTheCommand (.accReset 7 2), decodeOfEncodeIsTheCommand (.accAdd 7 0xAB),
    decodeOfEncodeIsTheCommand (.hdrMake true 0xF 65536),
    decodeOfEncodeIsTheCommand (.prsExec 3 [0x81, 0x05] 2),
    decodeOfEncodeIsTheCommand (.mskXor 0x37FA213D [0x48]), decodeOfEncodeIsTheCommand (.wrHdr defaultDesc)⟩

/-! ### Refusals of a command image (R86, R87) -/

section

variable {i : Instr} {s t : State}

theorem returning_ne_refused {q : Result} {r : Refusal} : s.returning q ≠ .refused r := by
  simp [State.returning]

/-- Every refusal that a command itself raises (60_exceptions.md R205). -/
theorem exec_refused_iff {r : Refusal} :
    exec i s = .refused r ↔
      (∃ a n, i = .accReset a n ∧ 8 < n.toNat ∧ r = .capacityTooLarge) ∨
      (∃ a b, i = .accAdd a b ∧ s.acc a = none ∧ r = .noInstance) ∨
      ∃ p buf len, i = .prsExec p buf len ∧ buf.length < len ∧ r = .lengthBeyondBuffer := by
  cases i with
  | accReset a n =>
    simp only [exec, execAccReset, Config.accMax]
    split
    · rename_i h
      simp [gt_iff_lt.mp h, eq_comm]
    · rename_i h
      simp [returning_ne_refused, h]
  | accAdd a b =>
    simp only [exec, execAccAdd]
    split
    · rename_i h
      simp [h, eq_comm]
    · rename_i h
      simp [returning_ne_refused, h]
  | prsExec p buf len =>
    simp only [exec, execPrsExec]
    split
    · rename_i h
      simp [gt_iff_lt.mp h, eq_comm]
    · rename_i h
      simp [returning_ne_refused, h]
  | hdrDefault | hdrMake | hdrEfflen | prsReset | prsByte | prsParsed | prsMsg | mskXor | wrHdr =>
    exact iff_of_false returning_ne_refused (by simp)

theorem exec_ne_refused_unassignedCommand : exec i s ≠ .refused .unassignedCommand := by
  simp [exec_refused_iff]

end

/-- Settles O6: every other code's decoder refuses its operands as OperandOutOfType alone, and no command that
decodes raises UnassignedCommand. -/
theorem unassignedCodesAreRefused : Obligations.UnassignedCodesAreRefused := by
  intro s code ops rest hp
  refine ⟨fun h => ?_, fun h => step_of_decode_error hp (decode_of_unassigned h ops)⟩
  by_contra hcode
  cases hd : decode ⟨code, ops⟩ with
  | ok i =>
    rw [step_of_decode_ok hp hd] at h
    exact exec_ne_refused_unassignedCommand h
  | error e =>
    rw [step_of_decode_error hp hd, (decode_readsImage hcode ops).of_error hd] at h
    simp [refusalOf] at h

section

variable {n m k : Nat} {ns : List Nat}

@[simp] theorem asBits_eq_error_iff {w : Nat} : asBits w n = .error .operandOutOfType ↔ 2 ^ w ≤ n := by
  unfold asBits
  split
  · rename_i h
    exact iff_of_false nofun h.not_ge
  · rename_i h
    exact iff_of_true rfl (Nat.le_of_not_lt h)

@[simp] theorem asBool_eq_error_iff : asBool n = .error .operandOutOfType ↔ 1 < n := by
  match n with
  | 0 | 1 => simp [asBool]
  | n + 2 => simp [asBool]

@[simp] theorem asDesc_eq_error_iff : asDesc n = .error .operandOutOfType ↔ 2 ^ 112 ≤ n :=
  map_eq_error_iff.trans asBits_eq_error_iff

theorem asBytes_cons_eq_error_iff :
    asBytes (n :: ns) = .error .operandOutOfType ↔
      asBits 8 n = .error .operandOutOfType ∨ asBytes ns = .error .operandOutOfType := by
  rcases (asBits_reads 8 n).ok_or_error with ⟨b, hb⟩ | hb
  · rcases (asBytes_reads ns).ok_or_error with ⟨bs, hbs⟩ | hbs <;> simp [asBytes, hb, hbs]
  · simp [asBytes, hb]

@[simp] theorem asBytes_eq_error_iff :
    asBytes ns = .error .operandOutOfType ↔ ∃ b ∈ ns, 0xFF < b := by
  induction ns with
  | nil => simp [asBytes]
  | cons n ns ih =>
    rw [asBytes_cons_eq_error_iff, asBits_eq_error_iff, ih, List.exists_mem_cons_iff]
    rfl

theorem decodeHdrMake_eq_error_iff :
    decodeHdrMake [.num n, .num m, .num k] = .error .operandOutOfType ↔
      asBool n = .error .operandOutOfType ∨ asBits 4 m = .error .operandOutOfType ∨
        asBits 64 k = .error .operandOutOfType := by
  rcases (asBool_reads n).ok_or_error with ⟨f, hf⟩ | hf
  · rcases (asBits_reads 4 m).ok_or_error with ⟨o, ho⟩ | ho
    · rcases (asBits_reads 64 k).ok_or_error with ⟨l, hl⟩ | hl <;> simp [decodeHdrMake, hf, ho, hl]
    · simp [decodeHdrMake, hf, ho]
  · simp [decodeHdrMake, hf]

theorem decodeMskXor_eq_error_iff :
    decodeMskXor [.num n, .bytes ns] = .error .operandOutOfType ↔
      asBits 32 n = .error .operandOutOfType ∨ asBytes ns = .error .operandOutOfType := by
  rcases (asBits_reads 32 n).ok_or_error with ⟨k, hk⟩ | hk
  · rcases (asBytes_reads ns).ok_or_error with ⟨bs, hbs⟩ | hbs <;> simp [decodeMskXor, hk, hbs]
  · simp [decodeMskXor, hk]

end

/-- Settles O7: a decoder refuses operands of the right shapes exactly when the type of one of them does. -/
theorem operandsOutsideTheirTypeAreRefused : Obligations.OperandsOutsideTheirTypeAreRefused := by
  intro h n m k bs
  refine ⟨?accReset, ?accAdd, ?hdrMake, ?hdrEfflen, ?prsByte, ?prsExec, ?mskXor, ?wrHdr⟩
  case accReset | accAdd | prsByte => exact map_eq_error_iff.trans asBits_eq_error_iff
  case hdrEfflen | wrHdr => exact map_eq_error_iff.trans asDesc_eq_error_iff
  case prsExec => exact map_eq_error_iff.trans asBytes_eq_error_iff
  case hdrMake =>
    exact decodeHdrMake_eq_error_iff.trans
      (or_congr asBool_eq_error_iff (or_congr asBits_eq_error_iff asBits_eq_error_iff))
  case mskXor =>
    exact decodeMskXor_eq_error_iff.trans (or_congr asBits_eq_error_iff asBytes_eq_error_iff)

/-! ### Programs (R88) -/

section

variable {i : Instr} {is : List Instr} {s t : State} {r : Refusal}

/-- No command reads the queue of issued commands (log 1): with another queue it does the same. -/
theorem exec_withPending_of_next (l : List Command) (h : exec i s = .next t) :
    exec i (s.withPending l) = .next (t.withPending l) := by
  cases i with
  | accReset a n =>
    obtain ⟨hn, rfl⟩ := execAccReset_next.mp h
    exact execAccReset_next.mpr ⟨hn, rfl⟩
  | accAdd a b =>
    obtain ⟨A, hA, rfl⟩ := execAccAdd_next.mp h
    exact execAccAdd_next.mpr ⟨A, hA, rfl⟩
  | prsExec p buf len =>
    obtain ⟨hlen, rfl⟩ := execPrsExec_next.mp h
    exact execPrsExec_next.mpr ⟨hlen, rfl⟩
  | hdrDefault | hdrMake | hdrEfflen | prsReset | prsByte | prsParsed | prsMsg | mskXor | wrHdr =>
    obtain rfl := returning_next_iff _ _ _ |>.mp h
    rfl

theorem exec_withPending_of_refused (l : List Command) (h : exec i s = .refused r) :
    exec i (s.withPending l) = .refused r :=
  exec_refused_iff.mpr (exec_refused_iff (s := s).mp h)

theorem step_load_cons : step (s.load (i :: is)) = exec i (s.load is) :=
  step_of_decode_ok rfl (decodeOfEncodeIsTheCommand i)

theorem run_succ_of_next {k : Nat} (h : step s = .next t) : core.run (k + 1) s = core.run k t := by
  have hcore : core.step s = .next t := h
  simp only [Host.Core.run, hcore]

theorem run_succ_of_refused {k : Nat} (h : step s = .refused r) : core.run (k + 1) s = .refused r := by
  have hcore : core.step s = .refused r := h
  simp only [Host.Core.run, hcore]

theorem runProgram_cons_of_next (h : exec i s = .next t) : runProgram (i :: is) s = runProgram is t := by
  simp only [runProgram, h]

theorem runProgram_cons_of_refused (h : exec i s = .refused r) : runProgram (i :: is) s = .refused r := by
  simp only [runProgram, h]

end

/-- Settles O5, by induction on the program: a step runs the first command, whatever is queued after it, and leaves
the rest of the program issued. -/
theorem issuedProgramRunsTopToBottom : Obligations.IssuedProgramRunsTopToBottom := by
  intro is s
  induction is generalizing s with
  | nil => rfl
  | cons i is ih =>
    cases h : exec i (s.withPending []) with
    | next t =>
      have hstep : step (s.load (i :: is)) = .next (t.load is) :=
        step_load_cons.trans (exec_withPending_of_next (s := s.withPending []) _ h)
      have hpending : t.withPending [] = t := congrArg t.withPending (exec_pending h).symm
      rw [runProgram_cons_of_next h, ← hpending]
      exact (run_succ_of_next hstep).trans (ih t)
    | fault f => cases f
    | refused r =>
      have hstep : step (s.load (i :: is)) = .refused r :=
        step_load_cons.trans (exec_withPending_of_refused (s := s.withPending []) _ h)
      exact (run_succ_of_refused hstep).trans (runProgram_cons_of_refused h).symm

/-! ### Header bytes 0 and 1 (R71, R72) -/

theorem toNat_append_eq_add {m n : Nat} (x : BitVec m) (y : BitVec n) :
    (x ++ y).toNat = x.toNat * 2 ^ n + y.toNat := by
  rw [BitVec.toNat_append, ← Nat.shiftLeft_add_eq_or_of_lt y.isLt, Nat.shiftLeft_eq]

/-- Settles O11: each field that stands above others is shifted by their width. -/
theorem headerBytesWeighTheirFields : Obligations.HeaderBytesWeighTheirFields := by
  intro d
  simp only [byte0, byte1, toNat_append_eq_add, BitVec.toNat_ofBool]
  omega

theorem byte0_stepFirst (P : Prs) (b : Byte) : byte0 (stepFirst P b).prs.d = b := by
  simp only [byte0, stepFirst, ofBool_getLsbD, BitVec.extractLsb'_append_extractLsb'_eq_extractLsb']
  exact BitVec.extractLsb'_eq_self

theorem byte1_stepSecond (P : Prs) (b : Byte) : byte1 (stepSecond P b).prs.d = b := by
  simp only [stepSecond_d, byte1, ofBool_getLsbD, BitVec.extractLsb'_append_extractLsb'_eq_extractLsb']
  exact BitVec.extractLsb'_eq_self

/-- Settles O47: byte 0 is split into the fields that `byte0` puts together, and the three commands have one
outcome, a next state. -/
theorem firstByteIsStoredAndEmittedVerbatim : Obligations.FirstByteIsStoredAndEmittedVerbatim := by
  intro P b hst
  have hstep : prsStep P b = stepFirst P b := by simp only [prsStep, hst]
  rw [hstep]
  exact ⟨⟨rfl, byte0_stepFirst P b⟩,
    fun d s => ⟨rfl, ⟨_, execWrHdr_next.mpr rfl⟩, ⟨_, execHdrEfflen_next.mpr rfl⟩⟩,
    fun fin op len s => ⟨rfl, ⟨_, execHdrMake_next.mpr rfl⟩⟩⟩

/-! ### The bytes a parser holds (R75, R81 to R83) -/

/-- The bytes of the header that a parser has taken so far, read back from its registers. -/
def taken (P : Prs) : Bytes :=
  match P.st with
  | .awaitFirst => []
  | .awaitSecond => [byte0 P.d]
  | .awaitExt => byte0 P.d :: byte1 P.d :: held P.acc
  | .awaitKey => writeHeader P.d ++ held P.acc
  | .headerComplete => wireHeader P.d
  | .failed => []

section

variable {P : Prs} {d : Desc} {xs : Bytes}

theorem taken_awaitFirst (h : P.st = .awaitFirst) : taken P = [] := by
  simp only [taken, h]

theorem taken_awaitSecond (h : P.st = .awaitSecond) : taken P = [byte0 P.d] := by
  simp only [taken, h]

theorem taken_awaitExt (h : P.st = .awaitExt) : taken P = byte0 P.d :: byte1 P.d :: held P.acc := by
  simp only [taken, h]

theorem taken_awaitKey (h : P.st = .awaitKey) : taken P = writeHeader P.d ++ held P.acc := by
  simp only [taken, h]

theorem taken_headerComplete (h : P.st = .headerComplete) : taken P = wireHeader P.d := by
  simp only [taken, h]

theorem taken_afterLength (P : Prs) : taken (afterLength P) = writeHeader P.d := by
  cases hmask : P.d.mask with
  | true => simp [afterLength, hmask, taken]
  | false => simp [afterLength, hmask, taken, wireHeader]

theorem writeHeader_of_short (h126 : d.plen.toNat ≠ 126) (h127 : d.plen.toNat ≠ 127) :
    writeHeader d = [byte0 d, byte1 d] := by
  simp [writeHeader, h126, h127]

theorem bytesBE_be_self (xs : Bytes) : bytesBE xs.length (be xs) = xs := by
  simpa using bytesBE_be xs 0

/-- An extended length read from as many bytes as PLEN announces is written as those bytes, minimal or not. -/
theorem writeHeader_of_ext (hplen : 126 ≤ d.plen.toNat)
    (hlen : xs.length = if d.plen.toNat = 126 then 2 else 8) :
    writeHeader { d with ext := BitVec.ofNat 64 (be xs) } = byte0 d :: byte1 d :: xs := by
  by_cases h126 : d.plen.toNat = 126
  · rw [if_pos h126] at hlen
    have hbe : be xs < 2 ^ 16 := (be_lt xs).trans_eq (by simp [hlen])
    have hext : ((BitVec.ofNat 64 (be xs)).extractLsb' 0 16).toNat = be xs := by
      rw [BitVec.extractLsb'_toNat, Nat.shiftRight_zero, BitVec.toNat_ofNat]
      omega
    simp only [writeHeader, h126, if_true, hext]
    rw [← hlen, bytesBE_be_self]
    rfl
  · have h127 : d.plen.toNat = 127 := by have := d.plen.isLt; omega
    rw [if_neg h126] at hlen
    have hbe : be xs < 2 ^ 64 := (be_lt xs).trans_eq (by simp [hlen])
    simp only [writeHeader, h127, if_true, BitVec.toNat_ofNat, Nat.mod_eq_of_lt hbe]
    rw [← hlen, bytesBE_be_self]
    rfl

theorem keyBytes_of_be (hlen : xs.length = 4) : keyBytes (BitVec.ofNat 32 (be xs)) = xs := by
  have hbe : be xs < 2 ^ 32 := (be_lt xs).trans_eq (by simp [hlen])
  rw [keyBytes, BitVec.toNat_ofNat, Nat.mod_eq_of_lt hbe, ← hlen, bytesBE_be_self]

theorem held_stored {A : Accum} (hA : accumInv A = true) (h : A.cnt < A.cap) (b : Byte) :
    held (stored A b) = held A ++ [b] := by
  obtain ⟨-, hcap, -⟩ := (accumInv_iff A).mp hA
  exact held_store (h.trans_le hcap) b

/-- A byte that fills an accumulator makes it read as the value of all its bytes, which number its capacity. -/
theorem accBE_stored {A : Accum} (hA : accumInv A = true) (hfull : A.cnt + 1 = A.cap) (b : Byte) :
    accBE (stored A b) = be (held A ++ [b]) ∧ (held A ++ [b]).length = A.cap := by
  obtain ⟨-, hcap, -⟩ := (accumInv_iff A).mp hA
  have hheld := held_stored hA (by omega) b
  refine ⟨hheld ▸ accBE_of_full hfull, ?_⟩
  rw [List.length_append, length_held (by omega), List.length_singleton, hfull]

/-! ### A byte step takes one byte more, and none is lost -/

variable (b : Byte)

theorem taken_stepFirst (hst : P.st = .awaitFirst) : taken (stepFirst P b).prs = taken P ++ [b] := by
  rw [taken_awaitFirst hst, taken_awaitSecond rfl, byte0_stepFirst, List.nil_append]

theorem byte0_stepSecond : byte0 (stepSecond P b).prs.d = byte0 P.d := by
  rw [stepSecond_d]
  rfl

theorem taken_stepSecond (hst : P.st = .awaitSecond) : taken (stepSecond P b).prs = taken P ++ [b] := by
  have hbytes : [byte0 (stepSecond P b).prs.d, byte1 (stepSecond P b).prs.d] = [byte0 P.d] ++ [b] := by
    rw [byte0_stepSecond, byte1_stepSecond]
    rfl
  rw [taken_awaitSecond hst, ← hbytes]
  simp only [stepSecond]
  split
  · rfl
  · split
    · rfl
    · rw [taken_afterLength, afterLength_d, writeHeader_of_short ‹_› ‹_›]

theorem taken_stepExt (hP : prsInv P = true) (hst : P.st = .awaitExt) :
    taken (stepExt P b).prs = taken P ++ [b] := by
  obtain ⟨hacc, hcap, hcnt, hplen, -, -⟩ := (prsInv_awaitExt_iff hst).mp hP
  rw [taken_awaitExt hst, stepExt_of_not_full hcnt.ne]
  split
  · rename_i hfull
    obtain ⟨hbe, hlen⟩ := accBE_stored hacc hfull b
    rw [taken_afterLength, hbe, writeHeader_of_ext hplen (hlen.trans hcap)]
    rfl
  · rw [taken_awaitExt (P := { P with acc := stored P.acc b }) hst, held_stored hacc hcnt]
    rfl

theorem taken_stepKey (hP : prsInv P = true) (hst : P.st = .awaitKey) :
    taken (stepKey P b).prs = taken P ++ [b] := by
  obtain ⟨hacc, hcap, hcnt, hmask, -, -⟩ := (prsInv_awaitKey_iff hst).mp hP
  have hlt : P.acc.cnt < P.acc.cap := by omega
  rw [taken_awaitKey hst, stepKey_of_not_full hlt.ne]
  split
  · rename_i hfull
    obtain ⟨hbe, hlen⟩ := accBE_stored hacc hfull b
    rw [taken_headerComplete rfl, hbe, wireHeader, if_pos hmask, keyBytes_of_be (hlen.trans hcap),
      List.append_assoc]
    rfl
  · rw [taken_awaitKey (P := { P with acc := stored P.acc b }) hst, held_stored hacc hlt, List.append_assoc]

theorem taken_prsStep (hP : prsInv P = true) (hst : P.st ≠ .headerComplete) :
    taken (prsStep P b).prs = taken P ++ [b] := by
  rcases prsStep_cases P b with ⟨h, e⟩ | ⟨h, e⟩ | ⟨h, e⟩ | ⟨h, e⟩ | ⟨h, -⟩ | ⟨h, -⟩
  · rw [e, taken_stepFirst b h]
  · rw [e, taken_stepSecond b h]
  · rw [e, taken_stepExt b hP h]
  · rw [e, taken_stepKey b hP h]
  · exact absurd h hst
  · exact absurd h (st_ne_failed_of_prsInv hP)

/-- Within the invariant no byte step overflows (42_parser.md R155). -/
theorem prsStep_status_of_inv (hP : prsInv P = true) : (prsStep P b).status = .ok := by
  rcases prsStep_outcome P b with ⟨-, -, hok, -⟩ | ⟨-, e⟩ | ⟨-, e⟩
  · exact hok
  · rw [e]
  · have hfailed : (prsStep P b).prs.st = .failed := by rw [e]
    exact absurd hfailed (st_ne_failed_of_prsInv (prsInv_prsStep hP b))

/-- Feeding bytes within the invariant takes a prefix of them, as long as the count says, and reports OK. -/
theorem feedList_of_inv (hP : prsInv P = true) (bs : Bytes) :
    (feedList P bs).status = .ok ∧ (feedList P bs).consumed ≤ bs.length ∧
      taken (feedList P bs).prs = taken P ++ bs.take (feedList P bs).consumed := by
  induction bs generalizing P with
  | nil => simp [feedList]
  | cons b bs ih =>
    by_cases hst : P.st = .headerComplete
    · simp [feedList_of_headerComplete hst]
    · obtain ⟨hok, hle, htaken⟩ := ih (prsInv_prsStep hP b)
      rw [feedList_cons_of_ok hst (prsStep_status_of_inv b hP)]
      refine ⟨hok, Nat.succ_le_succ hle, ?_⟩
      rw [htaken, taken_prsStep b hP hst, List.take_succ_cons, List.append_assoc]
      rfl

end

/-- Settles O46: from reset, the bytes that the parser holds are the bytes it consumed, and a completed parser holds
its descriptor's wire header. -/
theorem parsedHeaderWritesBackItsBytes : Obligations.ParsedHeaderWritesBackItsBytes := by
  intro p buf len n st s t hs h hresult hst
  obtain ⟨hlen, rfl⟩ := execPrsExec_next.mp h
  rw [withResult_result, Result.fed.injEq] at hresult
  rw [parser_withResult, parser_setParser_same] at hst ⊢
  have hfeed : feedBuffer initialPrs buf len = feedList initialPrs (buf.take len) :=
    feedBuffer_eq_feedList initialPrs buf len hlen
  rw [hs, hfeed] at hresult hst ⊢
  obtain ⟨rfl, rfl⟩ := hresult
  obtain ⟨hok, hle, htaken⟩ := feedList_of_inv prsInv_initialPrs (buf.take len)
  refine ⟨?_, hok⟩
  rw [taken_headerComplete hst, taken_awaitFirst rfl, List.nil_append, List.take_take] at htaken
  rw [htaken, Nat.min_eq_left (hle.trans (List.length_take_le _ _))]

end Sys2Proof.Proofs
end

section
/-! PROOFS. 40_accumulator.md: ACC.RESET (R101), ACC.ADD (R102) with its overflow (60_exceptions.md R201), and the
exactly-N law (R103, R104). -/

namespace Sys2Proof.Proofs

open Machine Laws

section

variable {s t u : State} {a : Handle} {A : Accum} {n : BitVec 4}

/-! ### What ACC.RESET and ACC.ADD do (R101, R102) -/

theorem onlyAcc_setAcc (r : Result) : s.onlyAcc a ((s.setAcc a A).withResult r) :=
  ⟨fun _ hc => acc_setAcc_other s A hc, fun _ => rfl, rfl⟩

theorem onlyAcc_trans (hst : s.onlyAcc a t) (htu : t.onlyAcc a u) : s.onlyAcc a u := by
  obtain ⟨hacc, hprs, hpending⟩ := hst
  obtain ⟨hacc', hprs', hpending'⟩ := htu
  exact ⟨fun c hc => (hacc' c hc).trans (hacc c hc), fun p => (hprs' p).trans (hprs p), hpending'.trans hpending⟩

theorem exec_accReset (hn : n.toNat ≤ 8) :
    exec (.accReset a n) s = .next ((s.setAcc a (accReset n.toNat)).withResult .done) :=
  execAccReset_next.mpr ⟨hn, rfl⟩

theorem exec_accAdd_of_not_full (hA : s.acc a = some A) (h : A.cnt ≠ A.cap) (b : Byte) :
    exec (.accAdd a b) s = .next ((s.setAcc a (stored A b)).withResult (.added (A.cnt + 1 == A.cap) .ok)) :=
  execAccAdd_next.mpr ⟨A, hA, by rw [accAdd_of_not_full h, stored]⟩

theorem exec_accAdd_of_full (hA : s.acc a = some A) (h : A.cnt = A.cap) (b : Byte) :
    exec (.accAdd a b) s = .next ((s.setAcc a A).withResult (.added true .frameSizeOverflow)) :=
  execAccAdd_next.mpr ⟨A, hA, by rw [accAdd_of_full h]⟩

theorem full_accReset (n : BitVec 4) : full (accReset n.toNat) = (n == 0) := by
  rw [Bool.eq_iff_iff, full, accReset_cnt, accReset_cap, beq_iff_eq, beq_iff_eq, BitVec.toNat_eq]
  exact eq_comm

end

/-- Settles O16: the empty accumulator is the one instance written, and a refusal needs a capacity above 8. -/
theorem accResetCompletes : Obligations.AccResetCompletes := by
  refine fun a n s => ⟨fun hn => ?_, fun hn => exec_refused_iff.mpr (.inl ⟨a, n, rfl, hn, rfl⟩)⟩
  have hbuf : ∀ j : Fin 8, (accReset n.toNat).buf[j] = 0 := fun j => Vector.getElem_replicate j.isLt
  exact ⟨_, accReset n.toNat, exec_accReset hn, acc_setAcc_same .., rfl, rfl, hbuf, full_accReset n, rfl,
    onlyAcc_setAcc _⟩

/-- Settles O17: below its capacity an accumulator within the invariant has room for the byte. -/
theorem accAddStoresTheNextByte : Obligations.AccAddStoresTheNextByte := by
  intro a b s A hA hinv hne
  obtain ⟨hcnt, -, -⟩ := (accumInv_iff A).mp hinv
  exact ⟨_, stored A b, exec_accAdd_of_not_full hA hne b, acc_setAcc_same .., rfl, rfl,
    held_stored hinv (hcnt.lt_of_ne hne) b, accumInv_store hinv hne b, rfl, onlyAcc_setAcc _⟩

/-- Settles O18: an overflow leaves the full accumulator as it is, so the next ACC.ADD overflows in the same way. -/
theorem accAddOverflowChangesNothing : Obligations.AccAddOverflowChangesNothing := by
  intro a b b' s A hA hfull
  have hA' : ((s.setAcc a A).withResult (.added true .frameSizeOverflow)).acc a = some A := acc_setAcc_same ..
  exact ⟨_, exec_accAdd_of_full hA hfull b, hA', rfl, onlyAcc_setAcc _,
    _, exec_accAdd_of_full hA' hfull b', acc_setAcc_same .., rfl,
    onlyAcc_trans (onlyAcc_setAcc _) (onlyAcc_setAcc _)⟩

/-! ### The exactly-N law (R103, R104) -/

/-- ACC.ADD of bytes that there is room for appends each of them to the bytes held. -/
theorem runProgram_accAdds_of_room {a : Handle} (bs : Bytes) {s : State} {A : Accum} (hA : s.acc a = some A)
    (hinv : accumInv A = true) (hroom : A.cnt + bs.length ≤ A.cap) :
    ∃ t A', runProgram (bs.map (.accAdd a)) s = .next t ∧ t.acc a = some A' ∧
      A'.cap = A.cap ∧ A'.cnt = A.cnt + bs.length ∧ held A' = held A ++ bs := by
  induction bs generalizing s A with
  | nil => exact ⟨s, A, rfl, hA, rfl, rfl, (List.append_nil _).symm⟩
  | cons b bs ih =>
    rw [List.length_cons] at hroom
    have hlt : A.cnt < A.cap := by omega
    obtain ⟨t, A', hrun, hA', hcap, hcnt, hheld⟩ :=
      ih (s := (s.setAcc a (stored A b)).withResult (.added (A.cnt + 1 == A.cap) .ok)) (A := stored A b)
        (acc_setAcc_same ..) (accumInv_store hinv hlt.ne b) (by rw [stored_cnt, stored_cap]; omega)
    refine ⟨t, A', ?_, hA', hcap, ?_, ?_⟩
    · rw [List.map_cons, runProgram_cons_of_next (exec_accAdd_of_not_full hA hlt.ne b), hrun]
    · rw [hcnt, stored_cnt, List.length_cons]; omega
    · rw [hheld, held_stored hinv hlt, List.append_assoc, List.singleton_append]

/-- Settles O19: after the reset and the adds the instance holds the bytes added, so the next byte finds room exactly
when they are fewer than N. -/
theorem accumulatorTakesExactlyNBytes : Obligations.AccumulatorTakesExactlyNBytes := by
  intro a n bs b s hn hlen
  obtain ⟨t, A, hrun, hA, hcap, hcnt, hheld⟩ :=
    runProgram_accAdds_of_room (s := (s.setAcc a (accReset n.toNat)).withResult .done) bs
      (acc_setAcc_same ..) (accumInv_accReset hn) (by simpa using hlen)
  rw [accReset_cap] at hcap
  rw [accReset_cnt, Nat.zero_add] at hcnt
  rw [held_accReset, List.nil_append] at hheld
  refine ⟨t, A, (runProgram_cons_of_next (exec_accReset hn)).trans hrun, hA, hcap, hcnt, fun hfull => ?_, ?_⟩
  · rw [accBE_of_full (by omega), hheld]
  · by_cases hlt : bs.length < n.toNat
    · refine ⟨_, exec_accAdd_of_not_full hA (by omega) b, ?_⟩
      rw [withResult_result, if_pos hlt, hcnt, hcap]
    · refine ⟨_, exec_accAdd_of_full hA (by omega) b, ?_⟩
      rw [withResult_result, if_neg hlt]

end Sys2Proof.Proofs
end

section
/-! PROOFS. 41_descriptor.md: the effective length (R124), the narrowest length encoding (R125), what HDR.MAKE builds
(R126, R127; 44_writer.md R194), and the three HDR commands (R121 to R123). -/

namespace Sys2Proof.Proofs

open Machine Laws

/-! ### The narrowest length encoding (R125) -/

section

variable {len : BitVec 64}

theorem encLen_of_literal (h : len.toNat < 126) : encLen len = (len.setWidth 7, 0) := if_pos h

theorem encLen_of_16_bit (h : 126 ≤ len.toNat) (h' : len.toNat ≤ 65535) : encLen len = (126, len) := by
  rw [encLen, if_neg (by omega), if_pos h']

theorem encLen_of_64_bit (h : 65535 < len.toNat) : encLen len = (127, len) := by
  rw [encLen, if_neg (by omega), if_neg (by omega)]

end

/-- Settles O13: one equation of `encLen` per range, and a length below 126 fits in seven bits. -/
theorem lengthEncodingIsTheNarrowest : Obligations.LengthEncodingIsTheNarrowest := by
  refine fun len => ⟨fun hlt => ?_, fun hge hle => ?_, fun hgt => ?_⟩
  · rw [encLen_of_literal hlt]
    exact ⟨(BitVec.toNat_setWidth ..).trans (Nat.mod_eq_of_lt (by omega)), rfl⟩
  · rw [encLen_of_16_bit hge hle]
    exact ⟨rfl, rfl⟩
  · rw [encLen_of_64_bit hgt]
    exact ⟨rfl, rfl⟩

/-! ### The effective length (R124) -/

theorem effLen_toNat_of_lt {d : Desc} (h : d.plen.toNat < 126) : (effLen d).toNat = d.plen.toNat := by
  rw [effLen_of_lt h]
  exact BitVec.toNat_setWidth_of_le (by decide)

/-- In every state of the parser: PLEN is still 0, or EXT is still 0, or the descriptor is wire-exact. -/
theorem ext_lt_of_prsInv {P : Prs} (hP : prsInv P = true) (hplen : P.d.plen.toNat = 126) :
    P.d.ext.toNat < 65536 := by
  cases hst : P.st with
  | awaitFirst =>
    obtain ⟨hd, -⟩ := (prsInv_awaitFirst_iff hst).mp hP
    rw [hd] at hplen
    exact absurd hplen (by decide)
  | awaitSecond =>
    obtain ⟨-, hzero, -⟩ := (prsInv_awaitSecond_iff hst).mp hP
    rw [hzero] at hplen
    exact absurd hplen (by decide)
  | awaitExt =>
    obtain ⟨-, -, -, -, hext, -⟩ := (prsInv_awaitExt_iff hst).mp hP
    rw [hext]
    decide
  | awaitKey =>
    obtain ⟨-, -, -, -, -, hexact⟩ := (prsInv_awaitKey_iff hst).mp hP
    obtain ⟨-, h16, -⟩ := (wireExact_iff P.d).mp hexact
    exact h16 hplen
  | headerComplete =>
    obtain ⟨-, hexact⟩ := (prsInv_headerComplete_iff hst).mp hP
    obtain ⟨-, h16, -⟩ := (wireExact_iff P.d).mp hexact
    exact h16 hplen
  | failed => exact absurd hst (st_ne_failed_of_prsInv hP)

/-- Settles O12: the bound on EXT follows from the parser invariant, which every command keeps. -/
theorem effectiveLengthFollowsTheThreeWayRule : Obligations.EffectiveLengthFollowsTheThreeWayRule :=
  ⟨fun _ => ⟨effLen_toNat_of_lt, fun h126 => effLen_of_ge h126.ge, fun h127 => effLen_of_ge (by omega)⟩,
    fun _ _ _ p hs h => ext_lt_of_prsInv (prsInv_parser (exec_keeps_inv hs h) p)⟩

/-! ### What HDR.MAKE builds (R126, R127, R194) -/

theorem wireExact_of_compliant {d : Desc} (h : compliant d = true) (hkey : d.mask = false → d.key = 0) :
    wireExact d = true := by
  rw [wireExact_iff]
  rcases (compliant_iff d).mp h with ⟨hplen, hext⟩ | ⟨hplen, -, hext⟩ | ⟨hplen, -⟩
  · exact ⟨fun _ => hext, fun h126 => absurd h126 hplen.ne, hkey⟩
  · exact ⟨fun hlt => absurd hplen hlt.ne, fun _ => Nat.lt_succ_of_le hext, hkey⟩
  · exact ⟨fun hlt => by omega, fun h126 => by omega, hkey⟩

theorem wireHeader_of_unmasked {d : Desc} (h : d.mask = false) : wireHeader d = writeHeader d := by
  simp [wireHeader, h]

section

variable (fin : Bool) (op : BitVec 4) (len : BitVec 64)

/-- The length fields of a made descriptor, by the field that its length is narrow enough for. -/
theorem makeDesc_length_cases :
    (len.toNat < 126 ∧ (makeDesc fin op len).plen.toNat = len.toNat ∧ (makeDesc fin op len).ext = 0) ∨
    ((126 ≤ len.toNat ∧ len.toNat ≤ 65535) ∧
      (makeDesc fin op len).plen.toNat = 126 ∧ (makeDesc fin op len).ext = len) ∨
    (65535 < len.toNat ∧ (makeDesc fin op len).plen.toNat = 127 ∧ (makeDesc fin op len).ext = len) := by
  obtain ⟨hliteral, h16, h64⟩ := lengthEncodingIsTheNarrowest len
  rw [makeDesc_plen, makeDesc_ext]
  by_cases hlt : len.toNat < 126
  · exact .inl ⟨hlt, hliteral hlt⟩
  · rw [Nat.not_lt] at hlt
    by_cases hle : len.toNat ≤ 65535
    · exact .inr (.inl ⟨⟨hlt, hle⟩, h16 hlt hle⟩)
    · rw [Nat.not_le] at hle
      exact .inr (.inr ⟨hle, h64 hle⟩)

theorem effLen_makeDesc : effLen (makeDesc fin op len) = len := by
  rcases makeDesc_length_cases fin op len with ⟨hlt, hplen, -⟩ | ⟨-, hplen, hext⟩ | ⟨-, hplen, hext⟩
  · exact BitVec.eq_of_toNat_eq ((effLen_toNat_of_lt (hplen.trans_lt hlt)).trans hplen)
  · exact (effLen_of_ge hplen.ge).trans hext
  · exact (effLen_of_ge (by omega)).trans hext

theorem compliant_makeDesc : compliant (makeDesc fin op len) = true := by
  rw [compliant_iff]
  rcases makeDesc_length_cases fin op len with ⟨hlt, hplen, hext⟩ | ⟨hrange, hplen, hext⟩ | ⟨hgt, hplen, hext⟩
  · exact .inl ⟨hplen.trans_lt hlt, hext⟩
  · exact .inr (.inl ⟨hplen, hext.symm ▸ hrange⟩)
  · exact .inr (.inr ⟨hplen, hext.symm ▸ hgt⟩)

end

/-- Settles O14: a made descriptor holds its length in the narrowest field, and has no key. -/
theorem madeDescriptorKeepsItsLengthAndIsCompliant : Obligations.MadeDescriptorKeepsItsLengthAndIsCompliant :=
  fun fin op len =>
    ⟨effLen_makeDesc fin op len, compliant_makeDesc fin op len,
      wireExact_of_compliant (compliant_makeDesc fin op len) (fun _ => makeDesc_key fin op len),
      wireHeader_of_unmasked (makeDesc_mask fin op len)⟩

/-! ### The three commands (R121 to R123) -/

theorem sameUnits_withResult (s : State) (r : Result) : s.sameUnits (s.withResult r) := ⟨rfl, rfl, rfl⟩

/-- Settles O15: each command returns its result and does nothing else. -/
theorem headerModelCommandsComplete : Obligations.HeaderModelCommandsComplete := by
  refine fun s => ⟨?default, fun fin op len => ?make, fun d => ?efflen⟩
  case default => exact ⟨_, execHdrDefault_next.mpr rfl, withResult_result .., sameUnits_withResult ..⟩
  case make =>
    exact ⟨_, makeDesc fin op len, execHdrMake_next.mpr rfl, withResult_result .., rfl, rfl, rfl, rfl, rfl, rfl, rfl,
      rfl, rfl, sameUnits_withResult ..⟩
  case efflen => exact ⟨_, execHdrEfflen_next.mpr rfl, withResult_result .., sameUnits_withResult ..⟩

end Sys2Proof.Proofs
end

section
/-! PROOFS. 42_parser.md: the byte step state by state (R143 to R148), the five parser commands (R141, R149 to R153),
chunked feeding (R151) and the consumption laws (R154), the direction in which a parser moves (R140), and that FAILED
is unreachable (R155). -/

namespace Sys2Proof.Proofs

open Machine Laws

/-! ### The byte step in each state (R143 to R148) -/

section

variable {P : Prs} (b : Byte)

theorem prsStep_of_awaitFirst (h : P.st = .awaitFirst) : prsStep P b = stepFirst P b := by simp only [prsStep, h]
theorem prsStep_of_awaitSecond (h : P.st = .awaitSecond) : prsStep P b = stepSecond P b := by simp only [prsStep, h]
theorem prsStep_of_awaitExt (h : P.st = .awaitExt) : prsStep P b = stepExt P b := by simp only [prsStep, h]
theorem prsStep_of_awaitKey (h : P.st = .awaitKey) : prsStep P b = stepKey P b := by simp only [prsStep, h]
theorem prsStep_of_headerComplete (h : P.st = .headerComplete) : prsStep P b = ⟨P, 0, .ok⟩ := by
  simp only [prsStep, h]
theorem prsStep_of_failed (h : P.st = .failed) : prsStep P b = ⟨P, 0, .frameSizeOverflow⟩ := by
  simp only [prsStep, h]

theorem afterLength_of_masked (h : P.d.mask = true) :
    (afterLength P).st = .awaitKey ∧ (afterLength P).acc = accReset 4 := by
  simp [afterLength, h]

theorem afterLength_of_unmasked (h : P.d.mask = false) :
    (afterLength P).st = .headerComplete ∧ (afterLength P).acc = P.acc := by
  simp [afterLength, h]

/-- The descriptor once byte 1 has given MASK and PLEN (R144). -/
def withSecondByte (d : Desc) (b : Byte) : Desc := { d with mask := b.getLsbD 7, plen := b.extractLsb' 0 7 }

theorem stepSecond_of_plen_126 (h : b.toNat % 128 = 126) :
    stepSecond P b = ⟨⟨.awaitExt, withSecondByte P.d b, accReset 2⟩, 1, .ok⟩ := by
  simp [stepSecond, withSecondByte, h]

theorem stepSecond_of_plen_127 (h : b.toNat % 128 = 127) :
    stepSecond P b = ⟨⟨.awaitExt, withSecondByte P.d b, accReset 8⟩, 1, .ok⟩ := by
  simp [stepSecond, withSecondByte, h]

theorem stepSecond_of_short (h : b.toNat % 128 < 126) :
    stepSecond P b = ⟨afterLength { P with d := withSecondByte P.d b }, 1, .ok⟩ := by
  have h126 : b.toNat % 128 ≠ 126 := by omega
  have h127 : b.toNat % 128 ≠ 127 := by omega
  simp [stepSecond, withSecondByte, h126, h127]

theorem stepExt_of_room (h : P.acc.cnt + 1 < P.acc.cap) :
    stepExt P b = ⟨{ P with acc := stored P.acc b }, 1, .ok⟩ := by
  rw [stepExt_of_not_full (by omega), if_neg (by omega)]

theorem stepKey_of_room (h : P.acc.cnt + 1 < P.acc.cap) :
    stepKey P b = ⟨{ P with acc := stored P.acc b }, 1, .ok⟩ := by
  rw [stepKey_of_not_full (by omega), if_neg (by omega)]

theorem stepExt_of_last (hacc : accumInv P.acc = true) (h : P.acc.cnt + 1 = P.acc.cap) :
    stepExt P b =
      ⟨afterLength { P with acc := stored P.acc b,
                            d := { P.d with ext := BitVec.ofNat 64 (be (held P.acc ++ [b])) } }, 1, .ok⟩ := by
  obtain ⟨hbe, -⟩ := accBE_stored hacc h b
  rw [stepExt_of_not_full (by omega), if_pos h, hbe]

theorem stepKey_of_last (hacc : accumInv P.acc = true) (h : P.acc.cnt + 1 = P.acc.cap) :
    stepKey P b =
      ⟨{ P with acc := stored P.acc b, d := { P.d with key := BitVec.ofNat 32 (be (held P.acc ++ [b])) },
                st := .headerComplete }, 1, .ok⟩ := by
  obtain ⟨hbe, -⟩ := accBE_stored hacc h b
  rw [stepKey_of_not_full (by omega), if_pos h, hbe]

end

/-- Settles O20: the step writes the five fields from byte 0 and nothing else. -/
theorem firstByteGivesFlagsAndOpcode : Obligations.FirstByteGivesFlagsAndOpcode := by
  intro P b hst
  exact ⟨_, prsStep_of_awaitFirst b hst, rfl, rfl, rfl, rfl, rfl, BitVec.extractLsb'_toNat .., rfl, rfl, rfl, rfl,
    rfl⟩

/-- Settles O21: one equation of the step per range of PLEN, and below 126 one of `afterLength` per value of MASK. -/
theorem secondByteChoosesWhatFollows : Obligations.SecondByteChoosesWhatFollows := by
  intro P b hst
  have hplen : (withSecondByte P.d b).plen.toNat = b.toNat % 128 := BitVec.extractLsb'_toNat ..
  rw [prsStep_of_awaitSecond b hst]
  by_cases h126 : b.toNat % 128 = 126
  · exact ⟨_, stepSecond_of_plen_126 b h126, rfl, hplen, by simp [h126]⟩
  by_cases h127 : b.toNat % 128 = 127
  · exact ⟨_, stepSecond_of_plen_127 b h127, rfl, hplen, by simp [h127]⟩
  have hshort : b.toNat % 128 < 126 := by omega
  refine ⟨_, stepSecond_of_short b hshort, ?_, ?_, fun h => absurd h h126, fun h => absurd h h127,
    fun _ hmask => afterLength_of_masked hmask, fun _ hmask => afterLength_of_unmasked hmask⟩
  · rw [afterLength_d]
    rfl
  · rw [afterLength_d, hplen]

/-- Settles O22: in either state the byte leaves room for another, and is only stored, or it is the last. -/
theorem fieldIsWrittenByTheByteThatFillsIt : Obligations.FieldIsWrittenByTheByteThatFillsIt := by
  intro P b hacc hcnt
  have hheld : held (stored P.acc b) = held P.acc ++ [b] := held_stored hacc hcnt b
  refine ⟨fun hst => ?ext, fun hst => ?key⟩
  case ext =>
    rw [prsStep_of_awaitExt b hst]
    by_cases hlast : P.acc.cnt + 1 = P.acc.cap
    · exact ⟨_, stepExt_of_last b hacc hlast, fun h => absurd hlast h.ne, fun _ =>
        ⟨afterLength_d _, fun hmask => afterLength_of_masked hmask,
          fun hmask => And.left (afterLength_of_unmasked hmask)⟩⟩
    · exact ⟨_, stepExt_of_room b (by omega), fun _ => ⟨hst, rfl, rfl, hheld⟩, fun h => absurd h hlast⟩
  case key =>
    rw [prsStep_of_awaitKey b hst]
    by_cases hlast : P.acc.cnt + 1 = P.acc.cap
    · exact ⟨_, stepKey_of_last b hacc hlast, fun h => absurd hlast h.ne, fun _ => ⟨rfl, rfl⟩⟩
    · exact ⟨_, stepKey_of_room b (by omega), fun _ => ⟨hst, rfl, rfl, hheld⟩, fun h => absurd h hlast⟩

/-! ### Feeding a whole byte sequence to a parser (R150, R151) -/

/-- PRS.EXEC's effect on a parser as a function of the bytes it is handed: in FAILED the error again, else the fold
of the byte step (R151). -/
def feedAll (P : Prs) (bs : Bytes) : Fed :=
  if P.st = .failed then ⟨P, 0, .frameSizeOverflow⟩ else feedList P bs

/-- The answer `r` of a feed that `n` consumed bytes went before. -/
def countedFrom (n : Nat) (r : Fed) : Fed := ⟨r.prs, r.consumed + n, r.status⟩

section

variable (n m : Nat) (r : Fed)

@[simp] theorem countedFrom_prs : (countedFrom n r).prs = r.prs := rfl
@[simp] theorem countedFrom_consumed : (countedFrom n r).consumed = r.consumed + n := rfl
@[simp] theorem countedFrom_status : (countedFrom n r).status = r.status := rfl
@[simp] theorem countedFrom_zero : countedFrom 0 r = r := rfl

theorem countedFrom_countedFrom : countedFrom n (countedFrom m r) = countedFrom (m + n) r := by
  simp only [countedFrom, Nat.add_assoc]

end

section

variable {P : Prs} {b : Byte} (bs : Bytes)

theorem feedBuffer_eq_feedAll {buf : Bytes} {len : Nat} (h : len ≤ buf.length) :
    feedBuffer P buf len = feedAll P (buf.take len) :=
  feedBuffer_eq_feedList P buf len h

theorem feedAll_of_failed (h : P.st = .failed) : feedAll P bs = ⟨P, 0, .frameSizeOverflow⟩ := if_pos h

theorem feedAll_of_not_failed (h : P.st ≠ .failed) : feedAll P bs = feedList P bs := if_neg h

theorem feedAll_of_headerComplete (h : P.st = .headerComplete) : feedAll P bs = ⟨P, 0, .ok⟩ := by
  rw [feedAll_of_not_failed bs (by simp [h]), feedList_of_headerComplete h]

theorem feedAll_nil (P : Prs) : feedAll P [] = ⟨P, 0, if P.st = .failed then .frameSizeOverflow else .ok⟩ := by
  by_cases h : P.st = .failed
  · rw [feedAll_of_failed _ h, if_pos h]
  · rw [feedAll_of_not_failed _ h, if_neg h]
    rfl

theorem prsStep_consumed_eq_zero_or_one (P : Prs) (b : Byte) :
    (prsStep P b).consumed = 0 ∨ (prsStep P b).consumed = 1 := by
  rcases prsStep_outcome P b with ⟨-, -, -, hone, -⟩ | ⟨-, e⟩ | ⟨-, e⟩
  · exact .inr hone
  · exact .inl (by rw [e])
  · exact .inl (by rw [e])

/-- A byte that is not consumed has found the parser, or left it, in a state that takes no further byte: whatever is
fed next gets the same answer. -/
theorem feedAll_after_unconsumed (h : (prsStep P b).consumed = 0) :
    feedAll (prsStep P b).prs bs = prsStep P b := by
  rcases prsStep_outcome P b with ⟨-, -, -, hone, -⟩ | ⟨hst, e⟩ | ⟨-, e⟩
  · omega
  · rw [e, feedAll_of_headerComplete bs hst]
  · rw [e, feedAll_of_failed bs rfl]

theorem feedAll_cons_of_unconsumed (h : (prsStep P b).consumed = 0) : feedAll P (b :: bs) = prsStep P b := by
  rcases prsStep_outcome P b with ⟨-, -, -, hone, -⟩ | ⟨hst, e⟩ | ⟨hst, e⟩
  · omega
  · rw [e, feedAll_of_headerComplete _ hst]
  · by_cases hf : P.st = .failed
    · rw [feedAll_of_failed _ hf, prsStep_of_failed b hf]
    · rw [feedAll_of_not_failed _ hf, feedList_cons_of_overflow hst (by rw [e]), e]

theorem feedAll_cons_of_consumed (h : (prsStep P b).consumed = 1) :
    feedAll P (b :: bs) = countedFrom 1 (feedAll (prsStep P b).prs bs) := by
  rcases prsStep_outcome P b with ⟨hcomplete, hfailed, hok, -, hnext⟩ | ⟨-, e⟩ | ⟨-, e⟩
  · rw [feedAll_of_not_failed _ hfailed, feedAll_of_not_failed _ hnext, feedList_cons_of_ok hcomplete hok]
    rfl
  · simp [e] at h
  · simp [e] at h

theorem feedAll_singleton (P : Prs) (b : Byte) : feedAll P [b] = prsStep P b := by
  rcases prsStep_outcome P b with ⟨-, -, hok, hone, hnext⟩ | ⟨-, e⟩ | ⟨-, e⟩
  · rw [feedAll_cons_of_consumed [] hone, feedAll_nil, if_neg hnext, countedFrom, Nat.zero_add, ← hok, ← hone]
  · exact feedAll_cons_of_unconsumed [] (by rw [e])
  · exact feedAll_cons_of_unconsumed [] (by rw [e])

/-- Feeding two sequences one after the other: a parser that stopped within the first takes nothing of the second and
gives the same status again. -/
theorem feedAll_append (P : Prs) (xs ys : Bytes) :
    feedAll P (xs ++ ys) = countedFrom (feedAll P xs).consumed (feedAll (feedAll P xs).prs ys) := by
  induction xs generalizing P with
  | nil => simp [feedAll_nil]
  | cons b xs ih =>
    rw [List.cons_append]
    rcases prsStep_consumed_eq_zero_or_one P b with hzero | hone
    · rw [feedAll_cons_of_unconsumed _ hzero, feedAll_cons_of_unconsumed _ hzero, feedAll_after_unconsumed _ hzero,
        hzero, countedFrom_zero]
    · rw [feedAll_cons_of_consumed _ hone, feedAll_cons_of_consumed _ hone, ih, countedFrom_countedFrom]
      rfl

/-- A parser that leaves bytes unconsumed is in one of the two states that take none (R154). -/
theorem feedAll_stops_early (h : (feedAll P bs).consumed < bs.length) :
    (feedAll P bs).prs.st = .headerComplete ∨ (feedAll P bs).prs.st = .failed := by
  induction bs generalizing P with
  | nil => simp at h
  | cons b bs ih =>
    rcases prsStep_outcome P b with ⟨-, -, -, hone, -⟩ | ⟨hst, e⟩ | ⟨-, e⟩
    · rw [feedAll_cons_of_consumed bs hone] at h ⊢
      exact ih (Nat.lt_of_succ_lt_succ h)
    · rw [feedAll_of_headerComplete _ hst]
      exact .inl hst
    · rw [feedAll_cons_of_unconsumed bs (by rw [e]), e]
      exact .inr rfl

end

/-! ### The parser commands (R141, R149, R150, R152, R153) -/

/-- The state in which a feeding command has left the parser named `p`, and returned, what `r` says. -/
def withFed (s : State) (p : Handle) (r : Fed) : State := (s.setParser p r.prs).withResult (.fed r.consumed r.status)

section

variable {s t u : State} {p : Handle} (r : Fed)

@[simp] theorem withFed_parser : (withFed s p r).parser p = r.prs := parser_setParser_same ..
@[simp] theorem withFed_result : (withFed s p r).result = .fed r.consumed r.status := rfl

theorem onlyParser_setParser (P : Prs) (q : Result) : s.onlyParser p ((s.setParser p P).withResult q) :=
  ⟨fun _ h => parser_setParser_other s P h, fun _ => rfl, rfl⟩

theorem onlyParser_withFed : s.onlyParser p (withFed s p r) := onlyParser_setParser _ _

theorem onlyParser_refl : s.onlyParser p s := ⟨fun _ _ => rfl, fun _ => rfl, rfl⟩

theorem onlyParser_trans (hst : s.onlyParser p t) (htu : t.onlyParser p u) : s.onlyParser p u := by
  obtain ⟨hprs, hacc, hpending⟩ := hst
  obtain ⟨hprs', hacc', hpending'⟩ := htu
  exact ⟨fun q hq => (hprs' q hq).trans (hprs q hq), fun a => (hacc' a).trans (hacc a), hpending'.trans hpending⟩

/-- Two states that differ from a third in one parser, and agree on it, have the same units. -/
theorem units_eq_of_onlyParser (ht : s.onlyParser p t) (hu : s.onlyParser p u) (hp : t.parser p = u.parser p) :
    (∀ q, t.parser q = u.parser q) ∧ (∀ a, t.acc a = u.acc a) ∧ t.pending = u.pending := by
  obtain ⟨hprs, hacc, hpending⟩ := ht
  obtain ⟨hprs', hacc', hpending'⟩ := hu
  refine ⟨fun q => ?_, fun a => (hacc a).trans (hacc' a).symm, hpending.trans hpending'.symm⟩
  by_cases hq : q = p
  · exact hq ▸ hp
  · exact (hprs q hq).trans (hprs' q hq).symm

theorem exec_prsByte (p : Handle) (b : Byte) (s : State) :
    exec (.prsByte p b) s = .next (withFed s p (prsStep (s.parser p) b)) :=
  execPrsByte_next.mpr rfl

theorem exec_prsExec {buf : Bytes} {len : Nat} (h : len ≤ buf.length) :
    exec (.prsExec p buf len) s = .next (withFed s p (feedAll (s.parser p) (buf.take len))) :=
  execPrsExec_next.mpr ⟨h, by rw [feedBuffer_eq_feedAll h]; rfl⟩

theorem exec_prsExec_whole (buf : Bytes) :
    exec (.prsExec p buf buf.length) s = .next (withFed s p (feedAll (s.parser p) buf)) := by
  rw [exec_prsExec le_rfl, List.take_length]

end

/-- Settles O26: the parser is left as `initialPrs`. -/
theorem prsResetCompletesInEveryState : Obligations.PrsResetCompletesInEveryState := by
  intro p s
  have hbuf : ∀ j : Fin 8, initialPrs.acc.buf[j] = 0 := fun j => Vector.getElem_replicate j.isLt
  refine ⟨(s.setParser p initialPrs).withResult .done, execPrsReset_next.mpr rfl, ?_⟩
  rw [parser_withResult, parser_setParser_same]
  exact ⟨rfl, rfl, rfl, rfl, hbuf, rfl, rfl, rfl, onlyParser_setParser _ _⟩

/-- Settles O27: PRS.BYTE leaves and returns what the byte step says. -/
theorem prsByteCompletesWithOneStep : Obligations.PrsByteCompletesWithOneStep :=
  fun p b s => ⟨_, exec_prsByte p b s, withFed_parser _, withFed_result _, onlyParser_withFed _⟩

/-- PRS.EXEC of a length within its buffer leaves and returns what feeding those bytes says. -/
theorem prsExec_completes {p : Handle} {s : State} {buf : Bytes} {len : Nat} (h : len ≤ buf.length) :
    ∃ t, exec (.prsExec p buf len) s = .next t ∧ t.parser p = (feedAll (s.parser p) (buf.take len)).prs ∧
      t.result = .fed (feedAll (s.parser p) (buf.take len)).consumed (feedAll (s.parser p) (buf.take len)).status ∧
      s.onlyParser p t :=
  ⟨_, exec_prsExec h, withFed_parser _, withFed_result _, onlyParser_withFed _⟩

/-- Settles O24: neither command finds anything to do in the two terminal states. -/
theorem terminalParserConsumesNothing : Obligations.TerminalParserConsumesNothing := by
  intro p s b buf len hlen
  have hbyte := prsByteCompletesWithOneStep p b s
  have hexec := prsExec_completes (p := p) (s := s) hlen
  refine ⟨fun hst => ?failed, fun hst => ?complete⟩
  case failed =>
    rw [prsStep_of_failed b hst] at hbyte
    rw [feedAll_of_failed _ hst] at hexec
    exact ⟨hbyte, hexec⟩
  case complete =>
    rw [prsStep_of_headerComplete b hst] at hbyte
    rw [feedAll_of_headerComplete _ hst] at hexec
    exact ⟨hbyte, hexec⟩

/-- Settles O28: feeding one byte is one byte step. -/
theorem prsByteIsPrsExecOfOneByte : Obligations.PrsByteIsPrsExecOfOneByte := by
  intro p b s
  have hlen : 1 ≤ [b].length := le_rfl
  rw [exec_prsByte, exec_prsExec hlen, List.take_of_length_le hlen, feedAll_singleton]

/-- Settles O29: the fold on no byte, and on a first byte that is consumed or not. -/
theorem prsExecFeedsByteAfterByte : Obligations.PrsExecFeedsByteAfterByte := by
  intro p b buf len s hlen
  refine ⟨?none, ?some⟩
  case none =>
    refine ⟨_, exec_prsExec (Nat.zero_le _), ?_⟩
    rw [List.take_zero, feedAll_nil]
    exact ⟨withFed_parser _, onlyParser_withFed _, withFed_result _⟩
  case some =>
    have hlen' : len + 1 ≤ (b :: buf).length := Nat.succ_le_succ hlen
    refine ⟨_, _, _, exec_prsByte p b s, exec_prsExec hlen, exec_prsExec hlen', onlyParser_withFed _,
      fun hzero => ?_, fun hone => ?_⟩
    · rw [List.take_succ_cons, feedAll_cons_of_unconsumed _ hzero]
      exact ⟨rfl, rfl⟩
    · rw [List.take_succ_cons, feedAll_cons_of_consumed _ hone, withFed_parser, withFed_parser, withFed_parser]
      exact ⟨rfl, _, _, rfl, rfl⟩

/-- Settles O33: both commands only return a reading of the parser. -/
theorem prsParsedAndPrsMsgRead : Obligations.PrsParsedAndPrsMsgRead := by
  refine fun p s => ⟨?parsed, ?msg⟩
  case parsed => exact ⟨_, _, execPrsParsed_next.mpr rfl, withResult_result .., beq_iff_eq, sameUnits_withResult ..⟩
  case msg => exact ⟨_, execPrsMsg_next.mpr rfl, withResult_result .., sameUnits_withResult ..⟩

/-! ### Feeding in chunks (R151) -/

theorem feedChunks_cons_of_next {p : Handle} {c : Bytes} {cs : List Bytes} {s t : State}
    (h : exec (.prsExec p c c.length) s = .next t) :
    feedChunks p (c :: cs) s = (feedChunks p cs t).map fun r => (r.1, consumedOf t.result + r.2) := by
  simp only [feedChunks, h]

/-- Feeding chunks one by one leaves the parser as feeding the whole stream does, and counts as many bytes. -/
theorem feedChunks_eq_feedAll (p : Handle) (chunks : List Bytes) (s : State) :
    ∃ t, feedChunks p chunks s = some (t, (feedAll (s.parser p) chunks.flatten).consumed) ∧
      t.parser p = (feedAll (s.parser p) chunks.flatten).prs ∧ s.onlyParser p t := by
  induction chunks generalizing s with
  | nil => exact ⟨s, by simp [feedChunks, feedAll_nil], by simp [feedAll_nil], onlyParser_refl⟩
  | cons c cs ih =>
    obtain ⟨t, hfeed, hparser, honly⟩ := ih (withFed s p (feedAll (s.parser p) c))
    rw [withFed_parser] at hfeed hparser
    refine ⟨t, ?_, ?_, onlyParser_trans (onlyParser_withFed _) honly⟩
    · rw [feedChunks_cons_of_next (exec_prsExec_whole c), hfeed, List.flatten_cons, feedAll_append,
        countedFrom_consumed, Nat.add_comm]
      rfl
    · rw [hparser, List.flatten_cons, feedAll_append, countedFrom_prs]

/-- Settles O34: the chunks and the one PRS.EXEC both do what feeding the whole stream does. -/
theorem chunkingDoesNotMatter : Obligations.ChunkingDoesNotMatter := by
  intro p chunks s
  obtain ⟨t, hfeed, hparser, honly⟩ := feedChunks_eq_feedAll p chunks s
  exact ⟨t, _, _, _, hfeed, exec_prsExec_whole _, withFed_result _,
    units_eq_of_onlyParser honly (onlyParser_withFed _) (hparser.trans (withFed_parser _).symm)⟩

/-- Settles O36: the fold consumes every byte unless it meets a terminal state. -/
theorem shortConsumptionMeansCompleteOrFailed : Obligations.ShortConsumptionMeansCompleteOrFailed := by
  intro p buf len n st s t h hresult hlt
  obtain ⟨hlen, -⟩ := execPrsExec_next.mp h
  obtain ⟨u, hu, hparser, hfed, -⟩ := prsExec_completes (p := p) (s := s) hlen
  obtain rfl : u = t := Host.Outcome.next.inj (hu.symm.trans h)
  rw [hfed, Result.fed.injEq] at hresult
  obtain ⟨rfl, -⟩ := hresult
  rw [hparser]
  exact feedAll_stops_early _ (by rwa [List.length_take_of_le hlen])

/-! ### The length that byte 1 announces (R79), and where a stream stops (R154) -/

section

variable {P : Prs} {b0 b1 : Byte} {rest : Bytes}

theorem length_writeHeader (d : Desc) : (writeHeader d).length = 2 + extLen d.plen := by
  simp only [writeHeader, extLen]
  split
  · simp
  · split <;> simp

theorem hdrLen_byte1 (d : Desc) : hdrLen (byte1 d) = (writeHeader d).length + if d.mask then 4 else 0 := by
  simp [hdrLen, length_writeHeader]

theorem length_wireHeader (d : Desc) : (wireHeader d).length = hdrLen (byte1 d) := by
  rw [hdrLen_byte1, wireHeader, List.length_append]
  cases d.mask with
  | true => simp [keyBytes]
  | false => rfl

theorem two_le_hdrLen (b : Byte) : 2 ≤ hdrLen b := by
  unfold hdrLen
  omega

/-- Once a parser holds byte 1, it holds as many bytes as that byte announces exactly when the header is complete, and
fewer before. -/
theorem taken_length_cases (hP : prsInv P = true) (htaken : taken P = b0 :: b1 :: rest) :
    (P.st = .headerComplete ∧ (taken P).length = hdrLen b1) ∨
    (P.st ≠ .headerComplete ∧ (taken P).length < hdrLen b1) := by
  cases hst : P.st with
  | awaitFirst => simp [taken_awaitFirst hst] at htaken
  | awaitSecond => simp [taken_awaitSecond hst] at htaken
  | failed => exact absurd hst (st_ne_failed_of_prsInv hP)
  | awaitExt =>
    obtain ⟨hacc, hcap, hcnt, hplen, -, -⟩ := (prsInv_awaitExt_iff hst).mp hP
    obtain ⟨-, hle, -⟩ := (accumInv_iff _).mp hacc
    have hext : extLen P.d.plen = P.acc.cap := by
      have := P.d.plen.isLt
      rw [hcap, extLen]
      split
      · rfl
      · rw [if_pos (by omega)]
    rw [taken_awaitExt hst] at htaken ⊢
    obtain ⟨-, rfl, -⟩ : _ ∧ byte1 P.d = b1 ∧ _ := by simpa using htaken
    refine .inr ⟨nofun, ?_⟩
    rw [hdrLen_byte1, length_writeHeader, List.length_cons, List.length_cons, length_held (by omega)]
    omega
  | awaitKey =>
    obtain ⟨hacc, hcap, hcnt, hmask, -, -⟩ := (prsInv_awaitKey_iff hst).mp hP
    rw [taken_awaitKey hst] at htaken ⊢
    obtain ⟨-, rfl, -⟩ : _ ∧ byte1 P.d = b1 ∧ _ := by simpa [writeHeader] using htaken
    refine .inr ⟨nofun, ?_⟩
    rw [hdrLen_byte1, if_pos hmask, List.length_append, length_held (by omega)]
    omega
  | headerComplete =>
    rw [taken_headerComplete hst] at htaken ⊢
    obtain ⟨-, rfl, -⟩ : _ ∧ byte1 P.d = b1 ∧ _ := by simpa [wireHeader, writeHeader] using htaken
    exact .inl ⟨rfl, length_wireHeader P.d⟩

theorem prsInv_feedAll (hP : prsInv P = true) (bs : Bytes) : prsInv (feedAll P bs).prs = true := by
  rw [feedAll_of_not_failed bs (st_ne_failed_of_prsInv hP)]
  exact prsInv_feedList hP bs

/-- Within the invariant a parser holds what it held and the bytes it consumed, and it stops early at
HEADER_COMPLETE alone. -/
theorem feedAll_of_inv (hP : prsInv P = true) (bs : Bytes) :
    (feedAll P bs).consumed ≤ bs.length ∧
      taken (feedAll P bs).prs = taken P ++ bs.take (feedAll P bs).consumed ∧
      ((feedAll P bs).prs.st = .headerComplete ∨ (feedAll P bs).consumed = bs.length) := by
  obtain ⟨-, hle, htaken⟩ := feedList_of_inv hP bs
  rw [← feedAll_of_not_failed bs (st_ne_failed_of_prsInv hP)] at hle htaken
  refine ⟨hle, htaken, ?_⟩
  rcases hle.lt_or_eq with hlt | heq
  · exact .inl ((feedAll_stops_early bs hlt).resolve_right (st_ne_failed_of_prsInv (prsInv_feedAll hP bs)))
  · exact .inr heq

theorem taken_initialPrs : taken initialPrs = [] := rfl

/-- No header is complete before byte 1. -/
theorem two_le_consumed_of_complete {bs : Bytes} (h : (feedAll initialPrs bs).prs.st = .headerComplete) :
    2 ≤ (feedAll initialPrs bs).consumed := by
  obtain ⟨hle, htaken, -⟩ := feedAll_of_inv prsInv_initialPrs bs
  rw [taken_headerComplete h, taken_initialPrs, List.nil_append] at htaken
  have hlen := congrArg List.length htaken
  rw [length_wireHeader, List.length_take_of_le hle] at hlen
  exact hlen ▸ two_le_hdrLen _

/-- From reset, a stream that has a byte 1 completes the header at the length which that byte announces, or is shorter
than that length and consumed whole. -/
theorem feedAll_initialPrs_cases (b0 b1 : Byte) (rest : Bytes) :
    ((feedAll initialPrs (b0 :: b1 :: rest)).prs.st = .headerComplete ∧
      (feedAll initialPrs (b0 :: b1 :: rest)).consumed = hdrLen b1 ∧ hdrLen b1 ≤ (b0 :: b1 :: rest).length) ∨
    ((feedAll initialPrs (b0 :: b1 :: rest)).prs.st ≠ .headerComplete ∧
      (feedAll initialPrs (b0 :: b1 :: rest)).consumed = (b0 :: b1 :: rest).length ∧
      (b0 :: b1 :: rest).length < hdrLen b1) := by
  obtain ⟨hle, htaken, hend⟩ := feedAll_of_inv prsInv_initialPrs (b0 :: b1 :: rest)
  rw [taken_initialPrs, List.nil_append] at htaken
  have hlen := congrArg List.length htaken
  rw [List.length_take_of_le hle] at hlen
  have htwo : 2 ≤ (feedAll initialPrs (b0 :: b1 :: rest)).consumed := by
    rcases hend with hcomplete | hall
    · exact two_le_consumed_of_complete hcomplete
    · simp [hall]
  obtain ⟨k, hk⟩ := Nat.exists_eq_add_of_le' htwo
  rw [hk, List.take_succ_cons, List.take_succ_cons] at htaken
  rcases taken_length_cases (prsInv_feedAll prsInv_initialPrs _) htaken with ⟨hst, heq⟩ | ⟨hst, hlt⟩
  · have hn := hlen.symm.trans heq
    exact .inl ⟨hst, hn, hn ▸ hle⟩
  · have hall := hend.resolve_left hst
    exact .inr ⟨hst, hall, hall ▸ hlen ▸ hlt⟩

end

/-- Settles O35: the chunks do what feeding the whole stream does, and byte 1 announces where that stops. -/
theorem streamIsConsumedUpToTheHeaderLength : Obligations.StreamIsConsumedUpToTheHeaderLength := by
  intro p chunks s hs
  obtain ⟨t, hfeed, hparser, -⟩ := feedChunks_eq_feedAll p chunks s
  rw [hs] at hfeed hparser
  refine ⟨t, _, hfeed, fun b0 b1 rest hbytes hle => ?long, fun b0 b1 rest hbytes hlt => ?short, fun hlt => ?two⟩
  case long =>
    rw [hbytes] at hle
    rw [hparser, hbytes]
    rcases feedAll_initialPrs_cases b0 b1 rest with ⟨hst, hn, -⟩ | ⟨-, -, hlt⟩
    · exact ⟨hn, hst⟩
    · exact absurd hle hlt.not_ge
  case short =>
    rw [hbytes] at hlt
    rw [hparser, hbytes]
    rcases feedAll_initialPrs_cases b0 b1 rest with ⟨-, -, hle⟩ | ⟨hst, hn, -⟩
    · exact absurd hlt hle.not_gt
    · exact ⟨hn, hst⟩
  case two =>
    rw [hparser]
    obtain ⟨hle, -, hend⟩ := feedAll_of_inv prsInv_initialPrs chunks.flatten
    have hst : (feedAll initialPrs chunks.flatten).prs.st ≠ .headerComplete := fun hcomplete =>
      absurd (two_le_consumed_of_complete hcomplete) (hle.trans_lt hlt).not_ge
    exact ⟨hend.resolve_left hst, hst⟩

/-! ### The direction of a parser (R140) -/

theorem afterLength_st_cases (P : Prs) : (afterLength P).st = .awaitKey ∨ (afterLength P).st = .headerComplete := by
  rw [afterLength_st]
  cases P.d.mask <;> simp

theorem stepSecond_st_cases (P : Prs) (b : Byte) :
    (stepSecond P b).prs.st = .awaitExt ∨ (stepSecond P b).prs.st = .awaitKey ∨
      (stepSecond P b).prs.st = .headerComplete := by
  simp only [stepSecond]
  split
  · exact .inl rfl
  · split
    · exact .inl rfl
    · exact .inr (afterLength_st_cases _)

theorem stepExt_st_cases (P : Prs) (b : Byte) :
    (stepExt P b).prs.st = P.st ∨ (stepExt P b).prs.st = .failed ∨ (stepExt P b).prs.st = .awaitKey ∨
      (stepExt P b).prs.st = .headerComplete := by
  by_cases hfull : P.acc.cnt = P.acc.cap
  · rw [stepExt_of_full hfull]
    exact .inr (.inl rfl)
  · rw [stepExt_of_not_full hfull]
    split
    · exact .inr (.inr (afterLength_st_cases _))
    · exact .inl rfl

theorem stepKey_st_cases (P : Prs) (b : Byte) :
    (stepKey P b).prs.st = P.st ∨ (stepKey P b).prs.st = .failed ∨ (stepKey P b).prs.st = .headerComplete := by
  by_cases hfull : P.acc.cnt = P.acc.cap
  · rw [stepKey_of_full hfull]
    exact .inr (.inl rfl)
  · rw [stepKey_of_not_full hfull]
    split
    · exact .inr (.inr rfl)
    · exact .inl rfl

/-- The codes of R28 rise along every edge of the state machine. -/
theorem code_le_prsStep (P : Prs) (b : Byte) : prsStateCode P.st ≤ prsStateCode (prsStep P b).prs.st := by
  rcases prsStep_cases P b with ⟨hst, e⟩ | ⟨hst, e⟩ | ⟨hst, e⟩ | ⟨hst, e⟩ | ⟨-, e⟩ | ⟨-, e⟩
  · have hnext : (stepFirst P b).prs.st = .awaitSecond := rfl
    rw [e, hst, hnext]
    decide
  · rw [e, hst]
    rcases stepSecond_st_cases P b with hnext | hnext | hnext <;> rw [hnext] <;> decide
  · rw [e]
    rcases stepExt_st_cases P b with hnext | hnext | hnext | hnext <;> rw [hnext, hst] <;> decide
  · rw [e]
    rcases stepKey_st_cases P b with hnext | hnext | hnext <;> rw [hnext, hst] <;> decide
  · rw [e]
    exact BitVec.le_refl _
  · rw [e]
    exact BitVec.le_refl _

theorem code_le_feedAll (P : Prs) (bs : Bytes) : prsStateCode P.st ≤ prsStateCode (feedAll P bs).prs.st := by
  induction bs generalizing P with
  | nil =>
    rw [feedAll_nil]
    exact BitVec.le_refl _
  | cons b bs ih =>
    rcases prsStep_consumed_eq_zero_or_one P b with hzero | hone
    · rw [feedAll_cons_of_unconsumed bs hzero]
      exact code_le_prsStep P b
    · rw [feedAll_cons_of_consumed bs hone]
      exact BitVec.le_trans (code_le_prsStep P b) (ih _)

/-- Settles O55: the commands that write a parser, beside PRS.RESET, feed it bytes. -/
theorem parserStateOnlyMovesForward : Obligations.ParserStateOnlyMovesForward := by
  intro i p s t h hreset
  obtain ⟨hparser, -⟩ := exec_next_units h
  rcases hparser p with same | ⟨rfl, -⟩ | ⟨b, -, e⟩ | ⟨buf, len, -, hlen, e⟩
  · rw [same]
    exact BitVec.le_refl _
  · exact absurd rfl hreset
  · rw [e]
    exact code_le_prsStep _ b
  · rw [e, feedBuffer_eq_feedAll hlen]
    exact code_le_feedAll _ _

/-! ### FAILED is unreachable (R155) -/

/-- A run that answers a next state has taken its first step to a next state. -/
theorem run_succ_next {k : Nat} {s t : State} (h : core.run (k + 1) s = .next t) :
    ∃ u, step s = .next u ∧ core.run k u = .next t := by
  cases hstep : step s with
  | next u => exact ⟨u, rfl, (run_succ_of_next hstep).symm.trans h⟩
  | fault f => cases f
  | refused r =>
    rw [run_succ_of_refused hstep] at h
    cases h

theorem run_keeps_inv {k : Nat} {s t : State} (hs : s.inv = true) (h : core.run k s = .next t) : t.inv = true := by
  induction k generalizing s with
  | zero =>
    cases h
    exact hs
  | succ k ih =>
    obtain ⟨u, hstep, hrun⟩ := run_succ_next h
    exact ih (stepKeepsTheInvariant s u hs hstep) hrun

/-- Settles O50: reset has the invariant, whatever is issued, every step keeps it, and FAILED lies outside it. -/
theorem noProgramFromResetReachesFailed : Obligations.NoProgramFromResetReachesFailed := by
  intro cmds k t p h
  obtain ⟨hreset, -⟩ := resetStateHasTheInvariant
  have hinv : t.inv = true := run_keeps_inv (s := State.reset.withPending cmds) (by rwa [inv_withPending]) h
  exact st_ne_failed_of_prsInv (prsInv_parser hinv p)

end Sys2Proof.Proofs
end

section
/-! PROOFS. 43_mask.md: the transform of MSK.XOR (R180), the order of the key bytes on the wire (R181), involution
(R182), and masking in chunks (R183). -/

namespace Sys2Proof.Proofs

open Machine Laws

/-! ### The transform, byte by byte (R180) -/

section

variable (key : BitVec 32)

/-- What MSK.XOR makes of byte `i` of its data. -/
def maskByte (i : Nat) (b : Byte) : Byte := b ^^^ keyByte key (i % 4)

theorem maskByte_involutive (i : Nat) : Function.Involutive (maskByte key i) := fun b => by
  rw [maskByte, maskByte, BitVec.xor_assoc, BitVec.xor_self, BitVec.xor_zero]

theorem maskByte_zero_key (i : Nat) : maskByte 0 i = id := by
  funext b
  simp [maskByte, keyByte]

theorem maskLoop_succ (n : Nat) (data : Bytes) :
    maskLoop key (n + 1) data = (maskLoop key n data).modify n (maskByte key n) := by
  rw [List.modify_eq_set_getElem?]
  simp only [maskLoop, memRead]
  cases (maskLoop key n data)[n]? <;> rfl

/-- The first `n` rounds mask the bytes below index `n` and no other. -/
theorem getElem?_maskLoop (n i : Nat) (data : Bytes) :
    (maskLoop key n data)[i]? = data[i]?.map fun b => if i < n then maskByte key i b else b := by
  induction n with
  | zero => simp [maskLoop]
  | succ n ih =>
    rw [maskLoop_succ, List.getElem?_modify, ih, Option.map_eq_map, Option.map_map]
    congr 1
    funext b
    rcases lt_trichotomy i n with hlt | rfl | hgt
    · simp [hlt, hlt.ne', Nat.lt_succ_of_lt hlt]
    · simp
    · simp [hgt.ne, hgt.not_gt, show ¬ i < n + 1 by omega]

theorem maskXor_eq_mapIdx (data : Bytes) : maskXor key data = data.mapIdx (maskByte key) := by
  refine List.ext_getElem? fun i => ?_
  rw [maskXor, getElem?_maskLoop, List.getElem?_mapIdx]
  by_cases hi : i < data.length
  · simp only [hi, if_true]
  · rw [List.getElem?_eq_none (not_lt.mp hi)]
    rfl

@[simp] theorem length_maskXor (data : Bytes) : (maskXor key data).length = data.length := by
  rw [maskXor_eq_mapIdx, List.length_mapIdx]

theorem getElem?_maskXor {data : Bytes} {i : Nat} (h : i < data.length) :
    (maskXor key data)[i]? = some (data[i] ^^^ keyByte key (i % 4)) := by
  rw [maskXor_eq_mapIdx, List.getElem?_mapIdx, List.getElem?_eq_getElem h]
  rfl

theorem maskXor_zero_key (data : Bytes) : maskXor 0 data = data := by
  rw [maskXor_eq_mapIdx, List.mapIdx_eq_iff]
  intro i
  rw [maskByte_zero_key, Option.map_id_fun, id_eq]

theorem maskXor_maskXor (data : Bytes) : maskXor key (maskXor key data) = data := by
  rw [maskXor_eq_mapIdx, maskXor_eq_mapIdx, List.mapIdx_mapIdx, List.mapIdx_eq_iff]
  intro i
  rw [(maskByte_involutive key i).comp_self, Option.map_id_fun, id_eq]

/-! ### The key bytes in wire order (R181) -/

theorem keyBytes_eq : keyBytes key = [keyByte key 0, keyByte key 1, keyByte key 2, keyByte key 3] := by
  simp [keyBytes, bytesBE, keyByte, BitVec.extractLsb', Nat.shiftRight_eq_div_pow]

theorem getD_keyBytes {j : Nat} (h : j < 4) : (keyBytes key).getD j 0 = keyByte key j := by
  rw [keyBytes_eq]
  interval_cases j <;> rfl

theorem getElem?_maskXor_of_keyBytes {ws data : Bytes} {i : Nat} (hkey : keyBytes key = ws) (h : i < data.length) :
    (maskXor key data)[i]? = some (data[i] ^^^ ws.getD (i % 4) 0) := by
  rw [getElem?_maskXor key h, ← hkey, getD_keyBytes key (Nat.mod_lt i (by decide))]

end

/-- Settles O37: the transform masks each byte by itself, with the key byte in wire order. -/
theorem maskXorsEachByteWithItsKeyByte : Obligations.MaskXorsEachByteWithItsKeyByte := fun key data =>
  ⟨length_maskXor key data, fun _ h => getElem?_maskXor_of_keyBytes key rfl h, maskXor_zero_key data, rfl, by decide⟩

/-! ### The command MSK.XOR (R180, R182) -/

theorem exec_mskXor (key : BitVec 32) (data : Bytes) (s : State) :
    exec (.mskXor key data) s = .next (s.withResult (.bytes (maskXor key data))) :=
  execMskXor_next.mpr rfl

/-- Settles O38: the command returns the transform of its data and does nothing else. -/
theorem mskXorCompletes : Obligations.MskXorCompletes := fun key data s =>
  ⟨_, _, exec_mskXor key data s, withResult_result .., length_maskXor key data, fun _ h => getElem?_maskXor key h,
    sameUnits_withResult ..⟩

/-- Settles O39: the transform undoes itself, since each byte does. -/
theorem maskingTwiceRestoresTheData : Obligations.MaskingTwiceRestoresTheData := fun key data s =>
  ⟨_, _, _, exec_mskXor key data s, withResult_result .., exec_mskXor .., by
    rw [withResult_result, maskXor_maskXor]⟩

/-! ### Masking in chunks (R183) -/

section

variable (key : BitVec 32)

theorem rotl32_zero : rotl32 key 0 = key := rfl

theorem rotl32_eq_rotateLeft {n : Nat} (h : n < 32) : rotl32 key n = key.rotateLeft n := by
  rw [BitVec.rotateLeft_def, Nat.mod_eq_of_lt h, rotl32]
  split
  · simp [*, BitVec.ushiftRight_eq_zero]
  · rfl

/-- Rotating the key left by `m` bytes moves key byte `m + j`, counted around the key, to place `j`. -/
theorem keyByte_rotl32 {m j : Nat} (hm : m < 4) (hj : j < 4) :
    keyByte (rotl32 key (8 * m)) j = keyByte key ((j + m) % 4) := by
  refine BitVec.eq_of_getLsbD_eq fun i hi => ?_
  rw [rotl32_eq_rotateLeft key (by omega)]
  simp only [keyByte, BitVec.getLsbD_extractLsb', BitVec.getLsbD_rotateLeft, hi, decide_true, Bool.true_and]
  by_cases hwrap : j + m < 4
  · rw [Nat.mod_eq_of_lt hwrap, decide_eq_false (by omega), decide_eq_true (by omega), cond_false, Bool.true_and]
    congr 1
    omega
  · rw [decide_eq_true (by omega), cond_true]
    congr 1
    omega

theorem maskByte_rotl32 (m : Nat) : maskByte (rotl32 key (8 * (m % 4))) = fun i => maskByte key (i + m) := by
  funext i b
  rw [maskByte, maskByte, keyByte_rotl32 key (Nat.mod_lt m (by decide)) (Nat.mod_lt i (by decide)), ← Nat.add_mod]

theorem maskXor_append (c1 c2 : Bytes) :
    maskXor key (c1 ++ c2) = maskXor key c1 ++ maskXor (rotl32 key (8 * (c1.length % 4))) c2 := by
  simp only [maskXor_eq_mapIdx, List.mapIdx_append, maskByte_rotl32]

theorem maskXor_zero_byte : maskXor key [0] = [keyByte key 0] := by
  simp [maskXor_eq_mapIdx, maskByte]

/-- With 1 in its first byte alone, a key tells that byte from the others. -/
theorem keyByte_ne_keyByte_zero {m : Nat} (h : m < 4) (hm : m ≠ 0) :
    keyByte 0x01000000 m ≠ keyByte 0x01000000 0 := by
  interval_cases m
  · exact absurd rfl hm
  all_goals decide

end

/-- Settles O40: the second chunk continues at key byte `|c1| mod 4`, and a zero byte there shows the key byte it is
masked with. -/
theorem maskingInChunksNeedsARotatedKey : Obligations.MaskingInChunksNeedsARotatedKey := by
  refine ⟨maskXor_append, fun key c1 c2 hmod => ?multiple, fun c1 hmod => ⟨0x01000000, [0], fun heq => ?other⟩⟩
  case multiple => rw [maskXor_append, hmod, Nat.mul_zero, rotl32_zero]
  case other =>
    have hlt : c1.length % 4 < 4 := Nat.mod_lt _ (by decide)
    rw [maskXor_append, List.append_cancel_left_eq, maskXor_zero_byte, maskXor_zero_byte,
      keyByte_rotl32 _ hlt (by decide), Nat.zero_add, Nat.mod_mod, List.cons.injEq] at heq
    obtain ⟨hbyte, -⟩ := heq
    exact keyByte_ne_keyByte_zero hlt hmod hbyte

/-! ### A key parsed from the wire (R181, R146) -/

/-- A stream that is exactly a header completes a parser at reset, and is the wire header of the parsed descriptor. -/
theorem feedAll_initialPrs_of_hdrLen {b0 b1 : Byte} {rest : Bytes} (hlen : (b0 :: b1 :: rest).length = hdrLen b1) :
    (feedAll initialPrs (b0 :: b1 :: rest)).prs.st = .headerComplete ∧
      (feedAll initialPrs (b0 :: b1 :: rest)).consumed = hdrLen b1 ∧
      wireHeader (feedAll initialPrs (b0 :: b1 :: rest)).prs.d = b0 :: b1 :: rest := by
  rcases feedAll_initialPrs_cases b0 b1 rest with ⟨hst, hn, -⟩ | ⟨-, -, hlt⟩
  · obtain ⟨-, htaken, -⟩ := feedAll_of_inv prsInv_initialPrs (b0 :: b1 :: rest)
    rw [taken_headerComplete hst, taken_initialPrs, List.nil_append, hn, ← hlen, List.take_length] at htaken
    exact ⟨hst, hn, htaken⟩
  · exact absurd hlen hlt.ne

theorem hdrLen_of_masked {b : Byte} (h : b.getLsbD 7 = true) : hdrLen b = 6 + extLen (b.extractLsb' 0 7) := by
  rw [hdrLen, if_pos h]
  omega

/-- The last four bytes of a masked wire header are the key bytes. -/
theorem keyBytes_of_wireHeader {d : Desc} {b0 b1 : Byte} {e ws : Bytes} (hmask : b1.getLsbD 7 = true)
    (hws : ws.length = 4) (h : wireHeader d = b0 :: b1 :: (e ++ ws)) : keyBytes d.key = ws := by
  obtain ⟨-, rfl, -⟩ : _ ∧ byte1 d = b1 ∧ _ := by simpa [wireHeader, writeHeader] using h
  rw [wireHeader, if_pos (by simpa using hmask)] at h
  exact List.append_inj_right' (s₂ := b0 :: byte1 d :: e) h (by simp [keyBytes, hws])

/-- Settles O41: the header's last four bytes are the key bytes of the parsed descriptor, in wire order. -/
theorem parsedKeyMasksInWireOrder : Obligations.ParsedKeyMasksInWireOrder := by
  intro p b0 b1 w0 w1 w2 w3 e data chunks s hs hmask he hbytes
  have hhdr : hdrLen b1 = 6 + e.length := by rw [hdrLen_of_masked hmask, he]
  have hlen : (b0 :: b1 :: (e ++ [w0, w1, w2, w3])).length = hdrLen b1 := by
    simp only [hhdr, List.length_cons, List.length_append, List.length_nil]
    omega
  obtain ⟨hst, hn, hwire⟩ := feedAll_initialPrs_of_hdrLen hlen
  obtain ⟨t, hfeed, hparser, -⟩ := feedChunks_eq_feedAll p chunks s
  rw [hs, hbytes] at hfeed hparser
  rw [hn, hhdr] at hfeed
  rw [← hparser] at hst hwire
  exact ⟨t, hfeed, hst, fun _ h => getElem?_maskXor_of_keyBytes _ (keyBytes_of_wireHeader hmask rfl hwire) h⟩

end Sys2Proof.Proofs
end

section
/-! PROOFS. 44_writer.md: what WR.HDR writes (R190, R191, R195), the complete wire header (R192), and its round trip
through a parser (R193, R194). -/

namespace Sys2Proof.Proofs

open Machine Laws

/-! ### The extended length and the key on the wire (R190, R192) -/

/-- The bytes WR.HDR writes after byte 1: the extended length that PLEN announces. -/
def extBytes (d : Desc) : Bytes := (writeHeader d).drop 2

/-- The bytes of the complete wire header that WR.HDR leaves to the caller. -/
def appendedKey (d : Desc) : Bytes := if d.mask then keyBytes d.key else []

section

variable {d : Desc}

theorem writeHeader_eq_cons (d : Desc) : writeHeader d = byte0 d :: byte1 d :: extBytes d := rfl

theorem wireHeader_eq_cons (d : Desc) : wireHeader d = byte0 d :: byte1 d :: (extBytes d ++ appendedKey d) := rfl

theorem length_extBytes (d : Desc) : (extBytes d).length = extLen d.plen := by
  rw [extBytes, List.length_drop, length_writeHeader, Nat.add_sub_cancel_left]

theorem extBytes_of_short (h : d.plen.toNat < 126) : extBytes d = [] := by
  rw [extBytes, writeHeader_of_short h.ne (by omega)]
  rfl

theorem extBytes_of_plen_126 (h : d.plen.toNat = 126) : extBytes d = bytesBE 2 (d.ext.extractLsb' 0 16).toNat :=
  if_pos h

theorem extBytes_of_plen_127 (h : d.plen.toNat = 127) : extBytes d = bytesBE 8 d.ext.toNat :=
  (if_neg (by omega)).trans (if_pos h)

theorem be_extBytes_of_plen_126 (h : d.plen.toNat = 126) : be (extBytes d) = d.ext.toNat % 65536 := by
  rw [extBytes_of_plen_126 h, be_bytesBE, BitVec.extractLsb'_toNat, Nat.shiftRight_zero]
  exact Nat.mod_mod ..

theorem be_extBytes_of_plen_127 (h : d.plen.toNat = 127) : be (extBytes d) = d.ext.toNat := by
  rw [extBytes_of_plen_127 h, be_bytesBE]
  exact Nat.mod_eq_of_lt d.ext.isLt

theorem be_keyBytes (key : BitVec 32) : be (keyBytes key) = key.toNat := by
  rw [keyBytes, be_bytesBE]
  exact Nat.mod_eq_of_lt key.isLt

/-! ### What a receiver gets, read off the wire (R193) -/

theorem asReceived_ext (d : Desc) : (asReceived d).ext = BitVec.ofNat 64 (be (extBytes d)) := by
  simp only [asReceived]
  split
  case isTrue h => rw [be_extBytes_of_plen_126 h]
  case isFalse h =>
    split
    case isTrue h' => rw [be_extBytes_of_plen_127 h', BitVec.ofNat_toNat, BitVec.setWidth_eq]
    case isFalse h' =>
      rw [extBytes_of_short (by have := d.plen.isLt; omega)]
      rfl

theorem asReceived_key (d : Desc) : (asReceived d).key = BitVec.ofNat 32 (be (appendedKey d)) := by
  simp only [asReceived, appendedKey]
  cases d.mask with
  | true => simp [be_keyBytes]
  | false => rfl

/-- The wire header fixes what a receiver gets: equal bytes have equal PLEN, so the extended lengths and the keys
stand at the same place. -/
theorem asReceived_eq_of_wireHeader_eq {d e : Desc} (h : wireHeader d = wireHeader e) :
    asReceived d = asReceived e := by
  rw [wireHeader_eq_cons, wireHeader_eq_cons, List.cons.injEq, List.cons.injEq] at h
  obtain ⟨h0, h1, hrest⟩ := h
  have hplen : d.plen = e.plen := by rw [← byte1_low_bits, h1, byte1_low_bits]
  obtain ⟨hext, hkey⟩ := List.append_inj hrest (by rw [length_extBytes, length_extBytes, hplen])
  exact desc_eq_of_bytes_eq h0 h1 (by rw [asReceived_ext, asReceived_ext, hext])
    (by rw [asReceived_key, asReceived_key, hkey])

theorem asReceived_of_wireExact (h : wireExact d = true) : asReceived d = d := by
  obtain ⟨hshort, h16, hkey⟩ := (wireExact_iff d).mp h
  refine desc_eq_of_bytes_eq rfl rfl ?ext ?key
  case ext =>
    simp only [asReceived]
    split
    case isTrue h126 => rw [Nat.mod_eq_of_lt (h16 h126), BitVec.ofNat_toNat, BitVec.setWidth_eq]
    case isFalse h126 =>
      split
      case isTrue => rfl
      case isFalse h127 => exact (hshort (by have := d.plen.isLt; omega)).symm
  case key =>
    simp only [asReceived]
    split
    case isTrue => rfl
    case isFalse hmask => exact (hkey (Bool.not_eq_true _ ▸ hmask)).symm

/-! ### A wire header fed to a parser at reset (R194) -/

theorem wireExact_of_complete {bs : Bytes} (h : (feedAll initialPrs bs).prs.st = .headerComplete) :
    wireExact (feedAll initialPrs bs).prs.d = true :=
  And.right ((prsInv_headerComplete_iff h).mp (prsInv_feedAll prsInv_initialPrs bs))

/-- The parsed descriptor is wire-exact and has the same wire header, so it is what a receiver gets. -/
theorem feedAll_wireHeader (d : Desc) :
    (feedAll initialPrs (wireHeader d)).prs.st = .headerComplete ∧
      (feedAll initialPrs (wireHeader d)).prs.d = asReceived d ∧
      (feedAll initialPrs (wireHeader d)).consumed = (wireHeader d).length := by
  obtain ⟨hst, hn, hwire⟩ :=
    feedAll_initialPrs_of_hdrLen (rest := extBytes d ++ appendedKey d) (length_wireHeader d)
  rw [← wireHeader_eq_cons] at hst hn hwire
  refine ⟨hst, ?_, hn.trans (length_wireHeader d).symm⟩
  rw [← asReceived_of_wireExact (wireExact_of_complete hst), asReceived_eq_of_wireHeader_eq hwire]

end

/-- Settles O45: the chunks do what feeding the whole header to a parser at reset does. -/
theorem wireHeaderParsesBack : Obligations.WireHeaderParsesBack := by
  intro d p chunks s hbytes
  obtain ⟨t, hfeed, hparser, -⟩ := feedChunks_eq_feedAll p chunks ((s.setParser p initialPrs).withResult .done)
  obtain ⟨hst, hd, hn⟩ := feedAll_wireHeader d
  rw [parser_withResult, parser_setParser_same, hbytes] at hfeed hparser
  rw [hn] at hfeed
  rw [← hparser] at hst hd
  exact ⟨_, t, execPrsReset_next.mpr rfl, hfeed, hst, hd, fun h => hd.trans (asReceived_of_wireExact h)⟩

/-- Settles O42: one reading of the extension bytes per value of PLEN. -/
theorem writerEmitsHeaderAndExtension : Obligations.WriterEmitsHeaderAndExtension := by
  refine fun d => ⟨extBytes d, writeHeader_eq_cons d, extBytes_of_short, fun h => ⟨?_, be_extBytes_of_plen_126 h⟩,
    fun h => ⟨?_, be_extBytes_of_plen_127 h⟩⟩
  · rw [extBytes_of_plen_126 h, length_bytesBE]
  · rw [extBytes_of_plen_127 h, length_bytesBE]

/-- Settles O44: the lengths of the extension and of the key are those byte 1 announces. -/
theorem wireHeaderHasTheAnnouncedLength : Obligations.WireHeaderHasTheAnnouncedLength := length_wireHeader

theorem writeHeader_with_key (d : Desc) (key : BitVec 32) : writeHeader { d with key := key } = writeHeader d := rfl

/-- Settles O43: the command returns the header bytes, in which the key does not occur, and does nothing else. -/
theorem wrHdrCompletesWithoutTheKey : Obligations.WrHdrCompletesWithoutTheKey := by
  intro d key s
  refine ⟨_, writeHeader d, execWrHdr_next.mpr rfl, withResult_result .., rfl, length_writeHeader d,
    sameUnits_withResult .., execWrHdr_next.mpr ?_⟩
  rw [writeHeader_with_key d key]

end Sys2Proof.Proofs
end

section
/-! PROOFS. 60_exceptions.md: the commands that report a status (R200), the entry to FAILED (R202, R203) and its
precision (R208), the refusals (R204, R205), and the return from FAILED (R206). -/

namespace Sys2Proof.Proofs

open Machine Laws

/-! ### Refusals (R204, R205) -/

section

variable {i : Instr} {s t : State}

/-- No fault exists, so a command that nothing refuses completes. -/
theorem exec_completes_iff : (∃ t, exec i s = .next t) ↔ ∀ r, exec i s ≠ .refused r := by
  cases exec i s with
  | next t => simp
  | fault f => cases f
  | refused r => simp

/-- The two preconditions of R205 that depend on the operands alone. -/
theorem wellFormed_iff :
    i.wellFormed = true ↔
      (∀ a n, i = .accReset a n → n.toNat ≤ 8) ∧ ∀ p buf len, i = .prsExec p buf len → len ≤ buf.length := by
  cases i with
  | accReset | prsExec => simp [Instr.wellFormed, Config.accMax]
  | _ => simp [Instr.wellFormed]

end

/-- Settles O8: a command completes when nothing refuses it, and `exec_refused_iff` lists the refusals. -/
theorem commandCompletesUnlessItsPreconditionFails : Obligations.CommandCompletesUnlessItsPreconditionFails := by
  intro i s
  have hcapacity : ∀ a n, i = .accReset a n → 8 < n.toNat → exec i s = .refused .capacityTooLarge :=
    fun a n hi hn => exec_refused_iff.mpr (.inl ⟨a, n, hi, hn, rfl⟩)
  have hlength : ∀ p buf len, i = .prsExec p buf len → buf.length < len → exec i s = .refused .lengthBeyondBuffer :=
    fun p buf len hi hlen => exec_refused_iff.mpr (.inr (.inr ⟨p, buf, len, hi, hlen, rfl⟩))
  have hcreated : ∀ a b, i = .accAdd a b → s.acc a = none → exec i s = .refused .noInstance :=
    fun a b hi hacc => exec_refused_iff.mpr (.inr (.inl ⟨a, b, hi, hacc, rfl⟩))
  refine ⟨?completes, hcapacity, hlength, hcreated⟩
  rw [exec_completes_iff, wellFormed_iff]
  constructor
  · intro h
    exact ⟨⟨fun a n hi => not_lt.mp fun hn => h _ (hcapacity a n hi hn),
      fun p buf len hi => not_lt.mp fun hlen => h _ (hlength p buf len hi hlen)⟩,
      fun a b hi hacc => h _ (hcreated a b hi hacc)⟩
  · rintro ⟨⟨hfits, hwithin⟩, hexists⟩ r h
    rcases exec_refused_iff.mp h with ⟨a, n, hi, hn, -⟩ | ⟨a, b, hi, hacc, -⟩ | ⟨p, buf, len, hi, hlen, -⟩
    · exact absurd (hfits a n hi) hn.not_ge
    · exact hexists a b hi hacc
    · exact absurd (hwithin p buf len hi) hlen.not_ge

/-! ### Which commands report a status (R200) -/

theorem resultStatus_of_returning {s t : State} {r : Result} (h : s.returning r = .next t) :
    resultStatus t.result = resultStatus r := by
  rw [(returning_next_iff ..).mp h, withResult_result]

/-- Settles O56: the result of every other command is of a kind whose status is OK. -/
theorem onlyFeedingCommandsReportOverflow : Obligations.OnlyFeedingCommandsReportOverflow := by
  intro i s t h hstatus
  cases i with
  | accAdd a b => exact .inl ⟨a, b, rfl⟩
  | prsByte p b => exact .inr (.inl ⟨p, b, rfl⟩)
  | prsExec p buf len => exact .inr (.inr ⟨p, buf, len, rfl⟩)
  | accReset a n =>
    obtain ⟨-, rfl⟩ := execAccReset_next.mp h
    cases hstatus
  | hdrDefault | hdrMake | hdrEfflen | prsReset | prsParsed | prsMsg | mskXor | wrHdr =>
    have hok : resultStatus t.result = .ok := resultStatus_of_returning h
    cases hok.symm.trans hstatus

/-! ### Entry to FAILED (R202, R203, R208) -/

/-- Settles O23: the byte step overflows, and for PRS.EXEC the first byte is already the offending one. -/
theorem overfedParserEntersFailed : Obligations.OverfedParserEntersFailed := by
  intro p s b buf len hst hfull hlen
  have hstep : prsStep (s.parser p) b = ⟨{ s.parser p with st := .failed }, 0, .frameSizeOverflow⟩ :=
    prsStep_of_overflow (prsStep_overflow_iff.mpr (.inr ⟨hst, hfull⟩))
  have hbyte := prsByteCompletesWithOneStep p b s
  have hexec := prsExec_completes (p := p) (s := s) (buf := b :: buf) (Nat.succ_le_succ hlen)
  rw [hstep] at hbyte
  rw [List.take_succ_cons, feedAll_cons_of_unconsumed _ (by rw [hstep]), hstep] at hexec
  exact ⟨hbyte, hexec⟩

/-- A feed that overflows has taken `n` bytes as a feed of those `n` alone does; from there the offending byte only
moves the parser to FAILED. -/
theorem feedAll_overflow_is_precise {P : Prs} {bs : Bytes} (hst : P.st ≠ .failed)
    (h : (feedAll P bs).status = .frameSizeOverflow) :
    ∃ n Q, n < bs.length ∧ feedAll P (bs.take n) = ⟨Q, n, .ok⟩ ∧
      feedAll P bs = ⟨{ Q with st := .failed }, n, .frameSizeOverflow⟩ := by
  induction bs generalizing P with
  | nil => simp [feedAll_nil, hst] at h
  | cons b bs ih =>
    rcases prsStep_outcome P b with ⟨-, -, -, hone, hnext⟩ | ⟨hcomplete, -⟩ | ⟨-, e⟩
    · rw [feedAll_cons_of_consumed _ hone] at h
      obtain ⟨n, Q, hn, hbefore, hwhole⟩ := ih hnext h
      refine ⟨n + 1, Q, Nat.succ_lt_succ hn, ?_, ?_⟩
      · rw [List.take_succ_cons, feedAll_cons_of_consumed _ hone, hbefore, countedFrom]
      · rw [feedAll_cons_of_consumed _ hone, hwhole, countedFrom]
    · simp [feedAll_of_headerComplete _ hcomplete] at h
    · refine ⟨0, P, Nat.succ_pos _, ?_, ?_⟩
      · rw [List.take_zero, feedAll_nil, if_neg hst]
      · rw [feedAll_cons_of_unconsumed _ (by rw [e]), e]

/-- Settles O31: PRS.EXEC feeds the first `len` bytes, of which the first `n` are those of the shorter PRS.EXEC. -/
theorem overflowOfPrsExecIsPrecise : Obligations.OverflowOfPrsExecIsPrecise := by
  intro p buf len n s t hst h hresult
  obtain ⟨hlen, -⟩ := execPrsExec_next.mp h
  obtain rfl := Host.Outcome.next.inj ((exec_prsExec hlen).symm.trans h)
  rw [withFed_result, Result.fed.injEq] at hresult
  obtain ⟨rfl, hoverflow⟩ := hresult
  obtain ⟨n, Q, hn, hbefore, hwhole⟩ := feedAll_overflow_is_precise hst hoverflow
  have hlt : n < len := hn.trans_le (List.length_take_le _ _)
  rw [List.take_take, Nat.min_eq_left hlt.le] at hbefore
  rw [hwhole]
  refine ⟨hlt, _, exec_prsExec (hlt.le.trans hlen), ?_, ?_⟩
  · rw [withFed_result, hbefore]
  · rw [withFed_parser, withFed_parser, hbefore]

/-! ### Return from FAILED (R206) -/

section

variable {s t : State} {p : Handle}

theorem feedBuffer_of_failed {P : Prs} (h : P.st = .failed) (buf : Bytes) (len : Nat) :
    feedBuffer P buf len = ⟨P, 0, .frameSizeOverflow⟩ := if_pos h

theorem parser_after_prsReset (h : exec (.prsReset p) s = .next t) : t.parser p = initialPrs := by
  rw [execPrsReset_next.mp h, parser_withResult, parser_setParser_same]

/-- No command but its PRS.RESET changes a failed parser. -/
theorem parser_of_failed {i : Instr} (h : exec i s = .next t) (hst : (s.parser p).st = .failed)
    (hi : i ≠ .prsReset p) : t.parser p = s.parser p := by
  obtain ⟨hparser, -⟩ := exec_next_units h
  rcases hparser p with same | ⟨rfl, -⟩ | ⟨b, -, e⟩ | ⟨buf, len, -, -, e⟩
  · exact same
  · exact absurd rfl hi
  · rw [e, prsStep_of_failed b hst]
  · rw [e, feedBuffer_of_failed hst]

theorem leaves_failed_iff {i : Instr} (h : exec i s = .next t) (hst : (s.parser p).st = .failed) :
    (t.parser p).st ≠ .failed ↔ i = .prsReset p := by
  constructor
  · intro hleft
    by_contra hi
    exact hleft (by rw [parser_of_failed h hst hi, hst])
  · rintro rfl
    rw [parser_after_prsReset h]
    decide

end

/-- Settles O58: a failed parser and a full accumulator answer every further byte alike, and a reset gives either of
them its initial value. -/
theorem onlyPrsResetLeavesFailed : Obligations.OnlyPrsResetLeavesFailed := by
  refine ⟨fun i p s t h hst => ⟨leaves_failed_iff h hst, ?reset, parser_of_failed h hst⟩,
    fun P b buf len hst => ⟨prsStep_of_failed b hst, feedBuffer_of_failed hst buf len⟩, fun A b hfull => ?full,
    fun a n s t h => ?afresh⟩
  case reset =>
    rintro rfl
    rw [parser_after_prsReset h]
    exact ⟨rfl, rfl⟩
  case full =>
    rw [accAdd_of_full (beq_iff_eq.mp hfull)]
    exact ⟨rfl, rfl⟩
  case afresh =>
    obtain ⟨-, rfl⟩ := execAccReset_next.mp h
    exact ⟨accReset n.toNat, acc_setAcc_same .., accReset_cap n.toNat, accReset_cnt n.toNat⟩

end Sys2Proof.Proofs
end

section
/-! PROOFS. 70_reset_and_hazards.md: one parse cycle covers one header (R231), and the bound on the bytes that a
PRS.EXEC takes (R245). -/

namespace Sys2Proof.Proofs

open Machine Laws

/-! ### One parse cycle (R231) -/

section

variable {s t : State} {p : Handle}

/-- PRS.EXEC's loop ends at once in HEADER_COMPLETE, whatever the length. -/
theorem feedBuffer_of_headerComplete {P : Prs} (h : P.st = .headerComplete) (buf : Bytes) (len : Nat) :
    feedBuffer P buf len = ⟨P, 0, .ok⟩ := by
  have hst : P.st ≠ .failed := by simp [h]
  rw [feedBuffer, if_neg hst]
  cases len with
  | zero => rfl
  | succ n => exact if_pos h

/-- No command but its PRS.RESET changes a parser whose header is complete. -/
theorem parser_of_headerComplete {i : Instr} (h : exec i s = .next t) (hst : (s.parser p).st = .headerComplete)
    (hi : i ≠ .prsReset p) : t.parser p = s.parser p := by
  obtain ⟨hparser, -⟩ := exec_next_units h
  rcases hparser p with same | ⟨rfl, -⟩ | ⟨b, -, e⟩ | ⟨buf, len, -, -, e⟩
  · exact same
  · exact absurd rfl hi
  · rw [e, prsStep_of_headerComplete b hst]
  · rw [e, feedBuffer_of_headerComplete hst]

end

/-- Settles O54: neither the byte step nor the loop does anything in HEADER_COMPLETE, and PRS.RESET leaves
`initialPrs`. -/
theorem onlyPrsResetEndsAParseCycle : Obligations.OnlyPrsResetEndsAParseCycle := by
  refine ⟨fun P hst => ⟨fun b => ?byte, fun buf len => ?buffer⟩, fun i p s t h => ⟨fun hi hst => ?other, ?reset⟩⟩
  case byte => rw [prsStep_of_headerComplete b hst]
  case buffer => rw [feedBuffer_of_headerComplete hst]
  case other => exact parser_of_headerComplete h hst hi
  case reset =>
    rintro rfl
    exact parser_after_prsReset h

/-! ### The longest header (R245) -/

/-- Two fixed bytes, at most eight of extended length, and at most four of the key (R79). -/
theorem hdrLen_le (b : Byte) : hdrLen b ≤ 14 := by
  have hext : extLen (b.extractLsb' 0 7) ≤ 8 := by
    unfold extLen
    split
    · omega
    · split <;> omega
  unfold hdrLen
  split <;> omega

/-- A parser holds no more bytes than its byte 1 announces. -/
theorem length_taken_le {P : Prs} (hP : prsInv P = true) : (taken P).length ≤ 14 := by
  match htaken : taken P with
  | [] => simp
  | [_] => simp
  | b0 :: b1 :: rest =>
    rw [← htaken]
    rcases taken_length_cases hP htaken with ⟨-, heq⟩ | ⟨-, hlt⟩
    · exact heq.trans_le (hdrLen_le b1)
    · exact hlt.le.trans (hdrLen_le b1)

/-- The bytes that a feed consumes are among those the parser holds afterwards. -/
theorem feedAll_consumed_le {P : Prs} (hP : prsInv P = true) (bs : Bytes) : (feedAll P bs).consumed ≤ 14 := by
  obtain ⟨hle, htaken, -⟩ := feedAll_of_inv hP bs
  calc (feedAll P bs).consumed
      ≤ (taken P).length + (bs.take (feedAll P bs).consumed).length := by
        rw [List.length_take_of_le hle]
        exact Nat.le_add_left _ _
    _ = (taken (feedAll P bs).prs).length := by rw [htaken, List.length_append]
    _ ≤ 14 := length_taken_le (prsInv_feedAll hP bs)

/-- Settles O32: PRS.EXEC feeds the first `len` bytes, and no parser holds more than the longest header. -/
theorem prsExecConsumesAtMostAHeader : Obligations.PrsExecConsumesAtMostAHeader := by
  intro p buf len n st s t hs h hresult
  obtain ⟨hlen, -⟩ := execPrsExec_next.mp h
  obtain rfl := Host.Outcome.next.inj ((exec_prsExec hlen).symm.trans h)
  rw [withFed_result, Result.fed.injEq] at hresult
  obtain ⟨rfl, -⟩ := hresult
  have hP := prsInv_parser hs p
  obtain ⟨hle, -⟩ := feedAll_of_inv hP (buf.take len)
  exact ⟨hle.trans (List.length_take_le _ _), feedAll_consumed_le hP _⟩

end Sys2Proof.Proofs
end
